-- ==== Sys2Proof/Word.lean ====
section
/-! DEFINITION. The words of the machine: a byte, the 16-bit word, the 12-bit address and a register's number.

The spec numbers bits from the least significant one (rule R7), and everything the machine stores is an unsigned
number of a stated width (rule R8), so bit vectors with their unsigned reading `toNat` are all that is needed. -/

namespace Sys2Proof

/-- A byte: a general register (rule R21) or a cell of memory (rule R29). -/
abbrev Byte := BitVec 8

/-- A 16-bit word: an opcode (rule R60), the program counter (rule R24) or a slot of the call stack (rule R26). -/
abbrev Word := BitVec 16

/-- The 12-bit address `nnn` of rule R61, which reaches every byte of memory (rule R40). -/
abbrev Addr := BitVec 12

/-- The number of a general register, 0 to 15.  Every value of the 4-bit fields `x` and `y` names a register that
exists (rule R69). -/
abbrev RegIdx := Fin 16

end Sys2Proof
end

