-- ==== Sys2Proof/Syntax.lean ====
section
/-! DEFINITION. The instructions: one constructor for each of the four rows of spec/opcode_table.json (rule R63).

The set is closed (rule R12): no other encoding of the CHIP-8 space is an instruction of this hardware. -/

namespace Sys2Proof

/-- An instruction with its operands.  The types of the operands are as wide as the fields that hold them (rules R68
and R69), so every term of this type is an instruction that exists. -/
inductive Instr where
  /-- HALT, the word `0x0000` (rule R100). -/
  | halt
  /-- RETURN, the word `0x00EE` (rule R111). -/
  | ret
  /-- CALL nnn, the words `0x2nnn` (rule R110). -/
  | call (nnn : Addr)
  /-- ADD Vx, Vy, the words `0x8xy4` (rule R130): `x` is a source and the destination, `y` a source. -/
  | add (x y : RegIdx)
deriving DecidableEq, Repr

end Sys2Proof
end

