-- ==== Sys2Proof/WellFormed.lean ====
section
/-! DEFINITION. Which written instructions are instructions: the operand ranges of rules R68, R69 and R71.

`Instr` cannot hold an operand out of range.  What can is an instruction AS WRITTEN, in the assembler syntax of rule
R71 or as the arguments of the encoder of rule R73, where an address and a register are plain numbers.  The checks
stand on that form, and `Written.toInstr` is the only way from it to an `Instr`. -/

namespace Sys2Proof

/-- An instruction as rule R71 writes it, its operands plain numbers of any size. -/
inductive Written where
  | halt
  | ret
  | call (a : Nat)
  | add (x y : Nat)
deriving DecidableEq, Repr

/-- The ranges of rule R73: an address lies in 0x000 to 0xFFF, a register number in 0 to 15. -/
def Written.wellFormed : Written → Bool
  | .halt => true
  | .ret => true
  | .call a => decide (a ≤ 0xFFF)
  | .add x y => decide (x ≤ 15) && decide (y ≤ 15)

/-- The instruction that a written form stands for, or none where an operand is out of its range. -/
def Written.toInstr : Written → Option Instr
  | .halt => some .halt
  | .ret => some .ret
  | .call a => if a ≤ 0xFFF then some (.call (BitVec.ofNat 12 a)) else none
  | .add x y =>
    if hx : x < 16 then
      if hy : y < 16 then some (.add ⟨x, hx⟩ ⟨y, hy⟩) else none
    else none

/-- The written form of an instruction. -/
def Instr.written : Instr → Written
  | .halt => .halt
  | .ret => .ret
  | .call nnn => .call nnn.toNat
  | .add x y => .add x.val y.val

/-- An instruction is well-formed when its written form is.  The operands' types see to it that every one is (the
lemmas `Laws.OperandsInRange`), which is rule R69's "there is no invalid register operand" and rule R68's "every CALL
target is an address of an existing byte". -/
def Instr.wellFormed (i : Instr) : Bool := i.written.wellFormed

end Sys2Proof
end

