-- ==== Sys2Proof/Decode.lean ====
section
/-! DEFINITION. Decoding and encoding: the fields of rule R61, the opcode map of rule R63, the decoder and the encoder
of rule R73, and the byte order of rule R42.

Decoding is total: every word gives an instruction or is rejected by name with the whole word (rules R61 and R66). -/

namespace Sys2Proof

/-! ### Byte order (rule R42) -/

/-- `b0 ++ b1` of rule R42: the byte at the lower address is the more significant one. -/
def joinBytes (b0 b1 : Byte) : Word := b0 ++ b1

/-- The more significant byte of a word: the one stored at the lower address (rule R42). -/
def highByte (w : Word) : Byte := w.extractLsb' 8 8

/-- The less significant byte of a word: the one stored at the higher address (rule R42). -/
def lowByte (w : Word) : Byte := w.extractLsb' 0 8

/-- The two bytes of a word in the order of their addresses (rule R60: every instruction is stored big-endian). -/
def wordBytes (w : Word) : List Byte := [highByte w, lowByte w]

/-! ### The fields of an opcode (rule R61) -/

/-- `c`, bits 15 to 12: the instruction class. -/
def fieldC (w : Word) : BitVec 4 := w.extractLsb' 12 4

/-- `x`, bits 11 to 8: the first register operand. -/
def fieldX (w : Word) : RegIdx := (w.extractLsb' 8 4).toFin

/-- `y`, bits 7 to 4: the second register operand. -/
def fieldY (w : Word) : RegIdx := (w.extractLsb' 4 4).toFin

/-- `d`, bits 3 to 0: the sub-opcode. -/
def fieldD (w : Word) : BitVec 4 := w.extractLsb' 0 4

/-- `nnn`, bits 11 to 0: the address operand. -/
def fieldNNN (w : Word) : Addr := w.extractLsb' 0 12

/-! ### The opcode map (rule R63) -/

/-- A row of the table of rule R63: an opcode `w` selects it exactly when `w &&& mask = pattern`. -/
structure OpcodeRow where
  mnemonic : String
  mask : Word
  pattern : Word
deriving DecidableEq, Repr

/-- The row selects the word (rule R63). -/
def OpcodeRow.selects (r : OpcodeRow) (w : Word) : Bool := w &&& r.mask == r.pattern

/-- The row of HALT: the whole word (rule R65). -/
def haltRow : OpcodeRow := ⟨"HALT", 0xFFFF#16, 0x0000#16⟩

/-- The row of RETURN: the whole word (rule R65). -/
def retRow : OpcodeRow := ⟨"RETURN", 0xFFFF#16, 0x00EE#16⟩

/-- The row of CALL: all of class 2. -/
def callRow : OpcodeRow := ⟨"CALL", 0xF000#16, 0x2000#16⟩

/-- The row of ADD: class 8 with the sub-opcode 4. -/
def addRow : OpcodeRow := ⟨"ADD", 0xF00F#16, 0x8004#16⟩

/-- "The complete instruction set" (rule R63). -/
def opcodeRows : List OpcodeRow := [haltRow, retRow, callRow, addRow]

/-- The row an instruction's words stand in. -/
def Instr.row : Instr → OpcodeRow
  | .halt => haltRow
  | .ret => retRow
  | .call _ => callRow
  | .add _ _ => addRow

/-! ### Decoding (rules R63, R66, R73) -/

/-- Why bytes do not decode to an instruction. -/
inductive DecodeError where
  /-- The word matches no row of the opcode map; it is carried "verbatim" (rule R66). -/
  | unimplemented (opcode : Word)
  /-- Fewer than two bytes were given.  The machine never decodes so few: its fetch reads two bytes or faults (rule
  R82). -/
  | tooShort (bytes : List Byte)
deriving DecidableEq, Repr

/-- The decoder of rule R73. -/
def decode (w : Word) : Except DecodeError Instr :=
  if haltRow.selects w then .ok .halt
  else if retRow.selects w then .ok .ret
  else if callRow.selects w then .ok (.call (fieldNNN w))
  else if addRow.selects w then .ok (.add (fieldX w) (fieldY w))
  else .error (.unimplemented w)

/-- The decoder on bytes: the first two, most significant first, are the instruction (rule R60); the rest are
handed back. -/
def decodeBytes : List Byte → Except DecodeError (Instr × List Byte)
  | b0 :: b1 :: rest =>
    match decode (joinBytes b0 b1) with
    | .ok i => .ok (i, rest)
    | .error e => .error e
  | bytes => .error (.tooShort bytes)

/-- What the host's check reads: the instruction whose bits are `w`, numbered as spec/opcode_table.json numbers them
(one word, bit 0 the least significant), of which the table gives `nbits`.  The word is laid out as the hardware
stores it and goes through the decoder on bytes. -/
def decodeTableWord (nbits w : Nat) : Option Instr :=
  match decodeBytes (wordBytes (BitVec.ofNat 16 (w % 2 ^ nbits))) with
  | .ok (i, _) => some i
  | .error _ => none

/-! ### Encoding (rules R62, R73) -/

/-- The encoder of rule R73: format Z is a whole constant, format A is `c` then `nnn`, format R is `c`, `x`, `y`, `d`
(rule R62). -/
def encode : Instr → Word
  | .halt => 0x0000#16
  | .ret => 0x00EE#16
  | .call nnn => BitVec.ofNat 16 (0x2000 + nnn.toNat)
  | .add x y => BitVec.ofNat 16 (0x8004 + 256 * x.val + 16 * y.val)

/-- The bytes of an instruction in the order of their addresses. -/
def encodeBytes (i : Instr) : List Byte := wordBytes (encode i)

end Sys2Proof
end

