-- ==== Sys2Proof/Config.lean ====
section
/-! DEFINITION. The parameters of the hardware, from the table of rule R6.

"A model may take them as constants; none is left open" (rule R6).  The spec leaves NO value free: section 1 of
93_implementation_defined.md says that nothing in this hardware is an "any value" draw.  So there is no opaque
constant here. -/

namespace Sys2Proof.Config

/-- MEM_SIZE, rule R6: memory holds 4096 bytes, at the addresses 0x000 to 0xFFF. -/
abbrev memSize : Nat := 0x1000

/-- The last address that exists, rule R29. -/
abbrev lastAddr : Nat := 0xFFF

/-- STACK_DEPTH, rule R6: the call stack holds 16 return addresses. -/
abbrev stackDepth : Nat := 16

/-- The step of the program counter, rule R6: two bytes after every successful fetch. -/
abbrev pcStep : Word := 2#16

/-- The entry point, rule R6: the value of the program counter after reset. -/
abbrev entryPoint : Word := 0#16

/-- What a byte of memory that nothing has written since reset reads as: reset zeroes all of memory (rule R34). -/
abbrev resetByte : Byte := 0#8

/-- The register that ADD writes its carry to, `V[15]` (rule R22). -/
abbrev carryReg : RegIdx := 15

end Sys2Proof.Config
end

