-- ==== Sys2Proof/Machine/State.lean ====
section
/-! DEFINITION. The state of the machine: everything the table of rule R20 lists, "and nothing else".

The opcode and its fields are no state (rule R30); there is no status word, timer, counter, interrupt or mode register
(rules R33, R164, R165, R166). -/

namespace Sys2Proof.Machine

/-- Where the core stands in its life (rule R31; decision D3 of the spec, log entry 3). -/
inductive RunState where
  /-- After reset, before Start: the host may load memory and registers. -/
  | idle
  /-- The core steps. -/
  | running
  /-- A HALT was dispatched. -/
  | halted
  /-- A fatal condition was raised. -/
  | faulted
deriving DecidableEq, Repr

/-- Memory: the bytes that do not read as zero, by address, in one canonical form (`Memory.wf` of Ops.lean).  An
address that is not listed reads as the zero of reset (rule R34). -/
abbrev Memory := List Host.Cell

/-- The architectural state (rule R20). -/
structure State where
  /-- The general registers `V[0]` to `V[15]` (rule R21). -/
  V : Vector Byte 16
  /-- The program counter (rule R24; its width is decision D1, log entry 1). -/
  pc : Word
  /-- The call stack's slots `stack[0]` to `stack[15]` (rule R26). -/
  stack : Vector Word 16
  /-- The stack pointer, 0 to 16: the next free slot and the number of live entries (rule R27; the values 17 to 31 of
  a 5-bit register are excluded by type, decisions D2 and D13, log entry 2). -/
  sp : Fin 17
  /-- The memory `mem[0x000]` to `mem[0xFFF]` (rule R29). -/
  mem : Memory
  /-- `run_state` (rule R31). -/
  runState : RunState
  /-- `fault_cause`, 3 bits (rule R32). -/
  faultCause : BitVec 3
  /-- `fault_info`, 16 bits (rule R32). -/
  faultInfo : Word
deriving DecidableEq, Repr

/-- The machine right after reset (rule R34). -/
def State.reset : State where
  V := Vector.replicate 16 0#8
  pc := Config.entryPoint
  stack := Vector.replicate 16 0#16
  sp := 0
  mem := []
  runState := .idle
  faultCause := 0#3
  faultInfo := 0#16

/-- The four faults, "all fatal" (rule R150).  The spec describes what raising one does to the state (rule R160), so
the machine TAKES it: a step that raises one answers the NEXT state, with `run_state` FAULTED and the cause recorded
(`State.raise` of Ops.lean).  No step, no meaning and no host operation ever answers the interface's `fault` with one
of these: they are the argument of `State.raise`. -/
inductive Fault where
  /-- Raised by the fetch of a step, when `pc + 1` is past the last address (rule R151).  Safe: it is the effect the
  spec gives. -/
  | outOfBoundsFetch
  /-- Raised by CALL with a full stack (rule R152).  Safe: it is the effect the spec gives. -/
  | stackOverflow
  /-- Raised by RETURN with an empty stack (rule R153).  Safe: it is the effect the spec gives. -/
  | stackUnderflow
  /-- Raised by the dispatch of a word that is no instruction, with that word (rule R154).  Safe: it is the effect the
  spec gives. -/
  | unimplementedOpcode (opcode : Word)
deriving DecidableEq, Repr

/-- What the model leaves without a meaning. -/
inductive Refusal where
  /-- Raised by an arm of `exec` whose instruction has no meaning yet, with its mnemonic.  Safe: the model stops.  No
  arm of `exec` raises it: all four instructions have their meaning. -/
  | notModelled (mnemonic : String)
deriving DecidableEq, Repr

end Sys2Proof.Machine
end

