-- ==== Sys2Proof/Machine/Ops.lean ====
section
/-! DEFINITION. The shared operations over memory, registers, the call stack and the status registers; taking a fault.

There is no return from a fault to stand beside `State.raise`: "There is no trap-return instruction and no nesting of
faults" (rule R162). -/

namespace Sys2Proof.Machine

/-! ### Memory (rules R29, R34, R40) -/

/-- The canonical form: addresses strictly rising, each of them an address that exists, and no entry equal to what an
unlisted address reads as. -/
abbrev Memory.wf (m : Memory) : Prop :=
  m.Pairwise (fun c d => c.1 < d.1) ∧ ∀ c ∈ m, c.1 < Config.memSize ∧ c.2 ≠ Config.resetByte

/-- The byte at an address: the listed one, or the zero of reset (rule R34). -/
def Memory.read : Memory → Nat → Byte
  | [], _ => Config.resetByte
  | (b, v) :: m, a => if a = b then v else Memory.read m a

/-- Write one byte.  A byte that equals the reset value is not listed, so the form stays canonical. -/
def Memory.write : Memory → Nat → Byte → Memory
  | [], a, v => if v = Config.resetByte then [] else [(a, v)]
  | (b, u) :: m, a, v =>
    if a < b then
      if v = Config.resetByte then (b, u) :: m else (a, v) :: (b, u) :: m
    else if a = b then
      if v = Config.resetByte then m else (a, v) :: m
    else (b, u) :: Memory.write m a v

/-- `MemRead(a, 2)` of rule R9: the two bytes at `a` and `a + 1`, most significant first (rule R42).  It is used only
where both addresses exist. -/
def Memory.readWord (m : Memory) (a : Nat) : Word := joinBytes (m.read a) (m.read (a + 1))

/-- The two bytes of a word stored at `a` and `a + 1`, most significant first. -/
def Memory.writeWord (m : Memory) (a : Nat) (w : Word) : Memory :=
  (m.write a (highByte w)).write (a + 1) (lowByte w)

/-! ### One update for each piece of state -/

/-- The state with other general registers. -/
def State.setV (s : State) (v : Vector Byte 16) : State := { s with V := v }

/-- `pc <- t` of rule R9. -/
def State.setPc (s : State) (t : Word) : State := { s with pc := t }

/-- The state with other stack slots. -/
def State.setStack (s : State) (v : Vector Word 16) : State := { s with stack := v }

/-- `sp <- n`. -/
def State.setSp (s : State) (n : Fin 17) : State := { s with sp := n }

/-- The state with another memory. -/
def State.setMem (s : State) (m : Memory) : State := { s with mem := m }

/-- `run_state <- r`. -/
def State.setRunState (s : State) (r : RunState) : State := { s with runState := r }

/-- `fault_cause <- c`. -/
def State.setFaultCause (s : State) (c : BitVec 3) : State := { s with faultCause := c }

/-- `fault_info <- w`. -/
def State.setFaultInfo (s : State) (w : Word) : State := { s with faultInfo := w }

/-! ### General registers (rules R21, R22, R23: none is hard-wired, `V[15]` is an ordinary register) -/

/-- `V[i]`. -/
def State.readV (s : State) (i : RegIdx) : Byte := s.V[i.val]

/-- `V[i] <- v` of rule R9. -/
def State.writeV (s : State) (i : RegIdx) (v : Byte) : State := s.setV (s.V.set i.val v)

/-! ### The call stack (rules R26, R27, R28) -/

/-- `stack[i]`. -/
def State.slot (s : State) (i : Fin 16) : Word := s.stack[i.val]

/-- The push of rule R110, with its capacity check before it: none where the stack is full, else the state with the
value in the slot `sp` and `sp` one more. -/
def State.push (s : State) (w : Word) : Option State :=
  if h : s.sp.val < 16 then
    some ((s.setStack (s.stack.set s.sp.val w)).setSp ⟨s.sp.val + 1, by omega⟩)
  else none

/-- The pop of rule R111, with its check before it: none where the stack is empty, else the value of the slot
`sp - 1` and the state with `sp` one less.  The slot keeps its value (rule R28). -/
def State.pop (s : State) : Option (Word × State) :=
  if h : 0 < s.sp.val then
    some (s.stack[s.sp.val - 1]'(by omega), s.setSp ⟨s.sp.val - 1, by omega⟩)
  else none

/-! ### The end of a run (rules R9, R100, R155, R156, R160) -/

/-- `halt` of rule R9: `run_state <- HALTED` and nothing else (rule R100). -/
def State.halt (s : State) : State := s.setRunState .halted

/-- The cause codes of rule R155 (decision D4 of the spec, log entry 4). -/
def Fault.code : Fault → BitVec 3
  | .outOfBoundsFetch => 1#3
  | .stackOverflow => 2#3
  | .stackUnderflow => 3#3
  | .unimplementedOpcode _ => 4#3

/-- What `fault_info` records (rule R156): the opcode "verbatim" for UnimplementedOpcode (rule R154), 0x0000 for the
other three (decision D5 of the spec, log entry 5). -/
def Fault.info : Fault → Word
  | .outOfBoundsFetch => 0#16
  | .stackOverflow => 0#16
  | .stackUnderflow => 0#16
  | .unimplementedOpcode opcode => opcode

/-- TAKING A FAULT: `raise F(info)` of rule R160.  It writes `run_state`, `fault_cause` and `fault_info`, and "writes
nothing else: not `pc`, not `sp`, not a stack slot, not a register, not memory"; "transfers control nowhere". -/
def State.raise (s : State) (f : Fault) : State :=
  ((s.setRunState .faulted).setFaultCause f.code).setFaultInfo f.info

/-! ### Fetch and advance (rules R82, R83) -/

/-- The fetch of rule R82.  "The bounds check precedes both byte reads": none where `pc + 1` is no address, compared
over the integers (rule R44), else the opcode.  It has no side effects. -/
def State.fetch (s : State) : Option Word :=
  if s.pc.toNat + 1 > Config.lastAddr then none else some (s.mem.readWord s.pc.toNat)

/-- The advance of rule R83. -/
def State.advance (s : State) : State := s.setPc (s.pc + Config.pcStep)

/-- What `State.withFetchWord` of Step.lean calls.  It lays the word's two bytes at `pc`, most significant first, and
starts the core, as the host does before a run (rule R186).  Where no fetch at `pc` can succeed, `pc` first goes to
the entry point. -/
def State.placeFetchWord (s : State) (w : Word) : State :=
  let dest : Word := if s.pc.toNat + 1 > Config.lastAddr then Config.entryPoint else s.pc
  ((s.setPc dest).setMem (s.mem.writeWord dest.toNat w)).setRunState .running

end Sys2Proof.Machine
end

