-- ==== Sys2Proof/Machine/Flags.lean ====
section
/-! DEFINITION. The one arithmetic operation and the one flag computation: the unsigned 8-bit sum and its carry (rule
R131).

The indicator is a whole register, not a bit (rule R22).  The operands are never read as signed, and there is no carry
in (rule R134). -/

namespace Sys2Proof.Machine

/-- The exact sum of two bytes, 0 to 510 (rule R130). -/
def exactSum (a b : Byte) : Nat := a.toNat + b.toNat

/-- The result, `(a + b) mod 256` (rule R131). -/
def sumResult (a b : Byte) : Byte := BitVec.ofNat 8 (exactSum a b % 256)

/-- The indicator: 1 where the exact sum is more than 255, else 0 (rule R131). -/
def carryOut (a b : Byte) : Byte := if exactSum a b > 255 then 1#8 else 0#8

end Sys2Proof.Machine
end

