-- ==== Sys2Proof/Machine/Operands.lean ====
section
/-! DEFINITION. The operand forms.  There are two: a register (rule R69) and the address `nnn` (rule R68).

There is no memory operand, no addressing mode and no data immediate (rules R41, R68). -/

namespace Sys2Proof.Machine

/-- A register operand as a source (rule R69). -/
def regOperand (s : State) (i : RegIdx) : Byte := s.readV i

/-- The address operand (rule R68): "unsigned, zero-extended to the 16-bit `pc`, not scaled, not shifted, not relative
to `pc`". -/
def addrOperand (nnn : Addr) : Word := nnn.setWidth 16

end Sys2Proof.Machine
end

