-- ==== Sys2Proof/Machine/Arithmetic.lean ====
section
/-! DEFINITION. Arithmetic: ADD (43_arithmetic.md). -/

namespace Sys2Proof.Machine

/-- ADD Vx, Vy (rule R130).  Both operands are read before either write (rule R133); the result goes to `V[x]` first
and the carry to `V[15]` second, always (rule R132, decision D9 of the spec, log entry 9).  It cannot fault. -/
def execAdd (x y : RegIdx) (s : State) : Host.Outcome State Fault Refusal :=
  let a := regOperand s x
  let b := regOperand s y
  .next ((s.writeV x (sumResult a b)).writeV Config.carryReg (carryOut a b))

end Sys2Proof.Machine
end

