-- ==== Sys2Proof/Machine/Control.lean ====
section
/-! DEFINITION. Control transfer: CALL and RETURN (42_control_transfer.md).

They are evaluated after the advance, so `pc` is the address of the instruction that follows. -/

namespace Sys2Proof.Machine

/-- CALL nnn (rule R110).  On a full stack it raises StackOverflow and nothing else happens, else it pushes `pc` and
goes to `nnn`.  The target is not checked (rule R115). -/
def execCall (nnn : Addr) (s : State) : Host.Outcome State Fault Refusal :=
  match s.push s.pc with
  | none => .next (s.raise .stackOverflow)
  | some t => .next (t.setPc (addrOperand nnn))

/-- RETURN (rule R111).  On an empty stack it raises StackUnderflow and nothing else happens, else it pops the stack
into `pc`.  The popped value is not checked (rule R115). -/
def execRet (s : State) : Host.Outcome State Fault Refusal :=
  match s.pop with
  | none => .next (s.raise .stackUnderflow)
  | some (w, t) => .next (t.setPc w)

end Sys2Proof.Machine
end

