-- ==== Sys2Proof/Machine/System.lean ====
section
/-! DEFINITION. The system instruction: HALT (41_system.md). -/

namespace Sys2Proof.Machine

/-- HALT (rule R100): `run_state <- HALTED`.  It cannot fault, and `pc` keeps its advanced value. -/
def execHalt (s : State) : Host.Outcome State Fault Refusal := .next s.halt

end Sys2Proof.Machine
end

