-- ==== Sys2Proof/Machine/Cycle.lean ====
section
/-! DEFINITION. The instruction cycle: fetch, advance, decode, dispatch, in that order (rules R81 and R87). -/

namespace Sys2Proof.Machine

/-- Decode and dispatch (rules R84, R85): exactly one outcome for every word, the instruction's own meaning or
UnimplementedOpcode with the word (rule R154). -/
def dispatchWord (w : Word) (s : State) : Host.Outcome State Fault Refusal :=
  match decode w with
  | .ok i => exec i s
  | .error _ => .next (s.raise (.unimplementedOpcode w))

/-- The step of a running core (rule R87).  A fetch that fails advances nothing (rule R83). -/
def runningCycle (s : State) : Host.Outcome State Fault Refusal :=
  match s.fetch with
  | none => .next (s.raise .outOfBoundsFetch)
  | some w => dispatchWord w s.advance

/-- The step (rule R80): "In IDLE, HALTED and FAULTED it takes no step and changes no state".  The interface has no
outcome for a step that is not taken.  DESIGN CHOICE (log entry 10): the answer is the same state again. -/
def cycle (s : State) : Host.Outcome State Fault Refusal :=
  match s.runState with
  | .running => runningCycle s
  | .idle => .next s
  | .halted => .next s
  | .faulted => .next s

end Sys2Proof.Machine
end

