-- ==== Sys2Proof/Machine/HostPort.lean ====
section
/-! DEFINITION. The host's side: the operations of rule R183, the windows of rules R184 and R185, and reset (rule R180).

The host is the second agent of this hardware (rule R2).  It has no register or queue in State (rule R20 ends with
"and nothing else"), so what it does is a function from a state to a state beside `step`, and a whole history is any
interleaving of the two that the windows admit (`Reachable` of Safety.lean). -/

namespace Sys2Proof.Machine

/-- The host operations, with the arguments of rule R183: an address of memory, a register's number, a byte. -/
inductive HostOp where
  | reset
  | writeMem (a : Addr) (v : Byte)
  | writeReg (i : RegIdx) (v : Byte)
  | start
  | readMem (a : Addr)
  | readReg (i : RegIdx)
  | readStatus
deriving DecidableEq, Repr

/-- What HostReadStatus returns (rule R183). -/
structure Status where
  runState : RunState
  faultCause : BitVec 3
  faultInfo : Word
  pc : Word
  sp : Fin 17
  stack : Vector Word 16
deriving DecidableEq, Repr

/-- What the host gets back. -/
inductive HostReply where
  /-- The operation was carried out; it returns nothing. -/
  | done
  /-- The operation was attempted outside its window: it "is refused and changes nothing" (rule R184). -/
  | turnedAway
  /-- HostReadMem and HostReadReg. -/
  | byte (v : Byte)
  /-- HostReadStatus. -/
  | status (st : Status)
deriving DecidableEq, Repr

/-- The numbers rule R31 suggests for `run_state`. -/
def RunState.code : RunState → BitVec 2
  | .idle => 0
  | .running => 1
  | .halted => 2
  | .faulted => 3

/-- Where an operation is accepted: the column "allowed when" of rule R183. -/
def HostOp.allowed : HostOp → RunState → Bool
  | .reset, _ => true
  | .writeMem _ _, r => r == .idle
  | .writeReg _ _, r => r == .idle
  | .start, r => r == .idle
  | .readMem _, r => r != .running
  | .readReg _, r => r != .running
  | .readStatus, r => r != .running

/-- The status a state shows. -/
def State.status (s : State) : Status := ⟨s.runState, s.faultCause, s.faultInfo, s.pc, s.sp, s.stack⟩

/-- The effect of an accepted operation: the column "effect" of rule R183.  Reset gives the state of rule R34 whatever
the state was (rule R180, decision D14 of the spec); Start changes `run_state` and nothing else (rule R182); a read has
no side effect. -/
def HostOp.effect : HostOp → State → HostReply × State
  | .reset, _ => (.done, State.reset)
  | .writeMem a v, s => (.done, s.setMem (s.mem.write a.toNat v))
  | .writeReg i v, s => (.done, s.writeV i v)
  | .start, s => (.done, s.setRunState .running)
  | .readMem a, s => (.byte (s.mem.read a.toNat), s)
  | .readReg i, s => (.byte (s.readV i), s)
  | .readStatus, s => (.status s.status, s)

/-- One host operation: "An operation attempted outside its window is refused and changes nothing" (rule R184). -/
def hostStep (op : HostOp) (s : State) : HostReply × State :=
  if op.allowed s.runState then op.effect s else (.turnedAway, s)

end Sys2Proof.Machine
end

