-- ==== Sys2Proof/Safety.lean ====
section
/-! DEFINITION. What the claims speak of: runs, the states a history can reach, the invariant of those states, the
ends of a run, and the views two states may share; and the step as rule R87 writes it, for the claim that `step` is
it.  Nothing here is part of the machine. -/

namespace Sys2Proof.Machine

/-! ### Runs and histories -/

/-- `n` steps of the core. -/
def runFor (n : Nat) (s : State) : Host.Outcome State Fault Refusal := Host.Core.run Sys2Proof.core n s

/-- The states that reset, steps of the core and host operations reach, in any interleaving: every agent of this
hardware (rules R2, R48), each host operation at any time (outside its window it changes nothing, rule R184). -/
inductive Reachable : State → Prop where
  | reset : Reachable State.reset
  | core (s t : State) (hs : Reachable s) (h : step s = .next t) : Reachable t
  | host (op : HostOp) (s : State) (hs : Reachable s) : Reachable (hostStep op s).2

/-- The instruction that the bytes at `pc` decode to, where a fetch at `pc` succeeds and they decode to one. -/
def State.nextInstr (s : State) : Option Instr :=
  match s.fetch with
  | none => none
  | some w =>
    match decode w with
    | .ok i => some i
    | .error _ => none

/-- The next instruction is a CALL. -/
def State.atCall (s : State) : Bool :=
  match s.nextInstr with
  | some (.call _) => true
  | _ => false

/-- How many of the first `n` states of a history stand at a CALL. -/
def callsIn (f : Nat → State) (n : Nat) : Nat := (List.range n).countP fun k => (f k).atCall

/-! ### The ends of a run (rules R161, R163, R188) -/

/-- A run is over "when `run_state` is HALTED or FAULTED" (rule R188). -/
def State.over (s : State) : Prop := s.runState = .halted ∨ s.runState = .faulted

/-- "HALTED is the only successful end" (rule R188). -/
def State.succeeded (s : State) : Prop := s.runState = .halted

/-! ### The invariant -/

/-- The word the last step fetched, read again behind an advanced program counter. -/
def State.lastWord (s : State) : Option Word :=
  if 2 ≤ s.pc.toNat then some (s.mem.readWord (s.pc.toNat - 2)) else none

/-- What the fault record of a FAULTED state says is true of the frozen state (rules R151 to R156): the cause is one of
the four, `fault_info` is zero but for the unimplemented word, and the frozen `pc`, `sp` and memory show the condition
that was met. -/
def State.faultRecordTrue (s : State) : Prop :=
  (s.faultCause = 1#3 ∧ s.faultInfo = 0#16 ∧ 0xFFF ≤ s.pc.toNat) ∨
  (s.faultCause = 2#3 ∧ s.faultInfo = 0#16 ∧ s.sp.val = 16 ∧
    ∃ w nnn, s.lastWord = some w ∧ decode w = .ok (.call nnn)) ∨
  (s.faultCause = 3#3 ∧ s.faultInfo = 0#16 ∧ s.sp.val = 0 ∧ s.lastWord = some 0x00EE#16) ∨
  (s.faultCause = 4#3 ∧ s.lastWord = some s.faultInfo ∧
    decode s.faultInfo = .error (.unimplemented s.faultInfo))

/-- The invariant of the reachable states. -/
structure State.Inv (s : State) : Prop where
  /-- Memory is in its canonical form. -/
  memWf : s.mem.wf
  /-- `0 <= pc <= 0x1000` (rule R25). -/
  pcRange : s.pc.toNat ≤ 0x1000
  /-- So is every saved value (rules R25, R110). -/
  savedRange : ∀ i : Fin 16, (s.slot i).toNat ≤ 0x1000
  /-- Every run starts with `pc` = 0 and `sp` = 0 (rule R184). -/
  idleAtEntry : s.runState = .idle → s.pc = 0#16 ∧ s.sp.val = 0
  /-- Nothing is recorded unless the core is FAULTED (rule R32). -/
  noRecord : s.runState ≠ .faulted → s.faultCause = 0#3 ∧ s.faultInfo = 0#16
  /-- At a HALTED end the word behind `pc` is HALT (rule R188: "`pc` is the address of the executed HALT plus 2"). -/
  haltBehind : s.runState = .halted → s.lastWord = some 0x0000#16
  /-- At a FAULTED end the record is true. -/
  record : s.runState = .faulted → s.faultRecordTrue

/-! ### What two states share -/

/-- The two states differ at most in the general registers. -/
def State.sameButV (s t : State) : Prop := t = s.setV t.V

/-- The two states differ at most in stack slots at the index `sp` or above (rule R28). -/
def State.sameButFreeSlots (s t : State) : Prop :=
  t = s.setStack t.stack ∧ ∀ i : Fin 16, i.val < s.sp.val → t.slot i = s.slot i

/-- The two states differ at most in memory. -/
def State.sameButMem (s t : State) : Prop := t = s.setMem t.mem

/-! ### The step as rule R87 writes it -/

/-- `raise F(info)` as the last block of rule R87 writes it, with the code as a number. -/
def ruleRaise (code : BitVec 3) (info : Word) (s : State) : State :=
  { s with runState := .faulted, faultCause := code, faultInfo := info }

/-- The step of rule R87, line by line, over the integers: "Every comparison is over integers".  It shares neither the
decoder nor the meanings with `step`; it reads the opcode as the number `256 * mem[pc] + mem[pc + 1]` and its fields as
quotients and remainders of that number. -/
def ruleStep (s : State) : State :=
  if s.pc.toNat + 1 > 0xFFF then ruleRaise 1#3 0#16 s
  else
    let opcode := 256 * (s.mem.read s.pc.toNat).toNat + (s.mem.read (s.pc.toNat + 1)).toNat
    let s := { s with pc := BitVec.ofNat 16 (s.pc.toNat + 2) }
    let c := opcode / 4096
    let x := Fin.ofNat 16 (opcode / 256)
    let y := Fin.ofNat 16 (opcode / 16)
    let d := opcode % 16
    let nnn := opcode % 4096
    if opcode = 0x0000 then { s with runState := .halted }
    else if opcode = 0x00EE then
      if s.sp.val = 0 then ruleRaise 3#3 0#16 s
      else { s with sp := Fin.ofNat 17 (s.sp.val - 1), pc := s.slot (Fin.ofNat 16 (s.sp.val - 1)) }
    else if c = 0x2 then
      if s.sp.val ≥ 16 then ruleRaise 2#3 0#16 s
      else
        { s with
          stack := s.stack.setIfInBounds s.sp.val s.pc
          sp := Fin.ofNat 17 (s.sp.val + 1)
          pc := BitVec.ofNat 16 nnn }
    else if c = 0x8 ∧ d = 0x4 then
      let a := (s.V[x.val]).toNat
      let b := (s.V[y.val]).toNat
      let v := s.V.set x.val (BitVec.ofNat 8 ((a + b) % 256))
      { s with V := v.set 15 (if a + b > 255 then 1#8 else 0#8) }
    else ruleRaise 4#3 (BitVec.ofNat 16 opcode) s

end Sys2Proof.Machine
end

