-- ==== Sys2Proof/Certificates/Slice0/Obligations.lean ====
section
/-! DEFINITION. The statements for the provers, each with the rule of the spec it formalises.

`run_state` is the spec's own rendering of the life of a run (decision D3 of the spec, log entry 3).  A statement about
a step takes `run_state` = RUNNING as its premise, because rule R87 is evaluated only then.  The meanings are evaluated
after the advance, so a statement about a meaning speaks of a state whose `pc` is already advanced. -/

open Sys2Proof Sys2Proof.Machine

/-! ### Encoding -/

/-- The first law of rule R73, `decode(encode(i)) = i` for every instruction with every operand, on words and on
bytes. -/
def Obligations.DecodeOfEncodeGivesTheInstruction : Prop :=
  ∀ (i : Instr) (rest : List Byte),
    decode (encode i) = .ok i ∧ decodeBytes (encodeBytes i ++ rest) = .ok (i, rest)

/-- The second law of rule R73, `encode(decode(w)) = w` for every word that decodes to an instruction. -/
def Obligations.EncodeOfDecodeGivesTheWord : Prop :=
  ∀ (w : Word) (i : Instr), decode w = .ok i → encode i = w

/-- Words written out from the encodings of rule R63 decode to what they stand for (vectors E1, E2, E3, E5, E8, E10,
E14, E19 of 95_test_vectors.md). -/
def Obligations.WordsWrittenOutDecodeAsEncoded : Prop :=
  decode 0b0000000000000000#16 = .ok .halt ∧
  decode 0b0000000011101110#16 = .ok .ret ∧
  decode 0b0010000100000000#16 = .ok (.call 0x100#12) ∧
  decode 0b0010111111111111#16 = .ok (.call 0xFFF#12) ∧
  decode 0b1000101010110100#16 = .ok (.add 10 11) ∧
  decode 0b0000000111101110#16 = .error (.unimplemented 0x01EE#16) ∧
  decode 0b1000000000010101#16 = .error (.unimplemented 0x8015#16) ∧
  decode 0b0001010010000000#16 = .error (.unimplemented 0x1480#16)

/-- Rule R61: the five fields are the shifts and masks of its table, `nnn = 256*x + 16*y + d`, and in memory the byte at
the lower address holds `c` and `x` and the other one `y` and `d`. -/
def Obligations.FieldsAreShiftsAndMasks : Prop :=
  ∀ w : Word,
    (fieldC w).setWidth 16 = (w >>> 12) &&& 0xF#16 ∧
    BitVec.ofNat 16 (fieldX w).val = (w >>> 8) &&& 0xF#16 ∧
    BitVec.ofNat 16 (fieldY w).val = (w >>> 4) &&& 0xF#16 ∧
    (fieldD w).setWidth 16 = w &&& 0xF#16 ∧
    (fieldNNN w).setWidth 16 = w &&& 0xFFF#16 ∧
    (fieldNNN w).toNat = 256 * (fieldX w).val + 16 * (fieldY w).val + (fieldD w).toNat ∧
    ∀ (m : Memory) (a : Nat), m.readWord a = w →
      (m.read a).toNat = 16 * (fieldC w).toNat + (fieldX w).val ∧
      (m.read (a + 1)).toNat = 16 * (fieldY w).val + (fieldD w).toNat

/-- Rule R63: a word decodes to an instruction exactly when its row's mask and match select it, in the spec's numbers and
in its nibbles; the operands are the fields; a word that no row selects is rejected with itself. -/
def Obligations.OpcodeMapByMaskAndNibbles : Prop :=
  ∀ w : Word,
    (decode w = .ok .halt ↔ w &&& 0xFFFF#16 = 0x0000#16) ∧
    (decode w = .ok .ret ↔ w &&& 0xFFFF#16 = 0x00EE#16) ∧
    (∀ nnn, decode w = .ok (.call nnn) ↔ w &&& 0xF000#16 = 0x2000#16 ∧ nnn = fieldNNN w) ∧
    (∀ x y, decode w = .ok (.add x y) ↔ w &&& 0xF00F#16 = 0x8004#16 ∧ x = fieldX w ∧ y = fieldY w) ∧
    (decode w = .ok .halt ↔ fieldC w = 0x0#4 ∧ fieldX w = 0x0 ∧ fieldY w = 0x0 ∧ fieldD w = 0x0#4) ∧
    (decode w = .ok .ret ↔ fieldC w = 0x0#4 ∧ fieldX w = 0x0 ∧ fieldY w = 0xE ∧ fieldD w = 0xE#4) ∧
    ((∃ nnn, decode w = .ok (.call nnn)) ↔ fieldC w = 0x2#4) ∧
    ((∃ x y, decode w = .ok (.add x y)) ↔ fieldC w = 0x8#4 ∧ fieldD w = 0x4#4) ∧
    (decode w = .error (.unimplemented w) ↔ ∀ r ∈ opcodeRows, r.selects w = false)

/-- Rule R64 (the spec's own derivation): no word selects two rows, so the order of the tests cannot matter. -/
def Obligations.NoWordSelectsTwoRows : Prop :=
  ∀ (w : Word) (r₁ r₂ : OpcodeRow), r₁ ∈ opcodeRows → r₂ ∈ opcodeRows →
    r₁.selects w = true → r₂.selects w = true → r₁ = r₂

/-- Rule R65: HALT and RETURN are matched on the whole word, the six words of the rule are unimplemented, and exactly
two words of class 0 are instructions. -/
def Obligations.HaltAndReturnMatchTheWholeWord : Prop :=
  (∀ w : Word, decode w = .ok .halt ↔ w = 0x0000#16) ∧
  (∀ w : Word, decode w = .ok .ret ↔ w = 0x00EE#16) ∧
  (∀ w : Word, fieldC w = 0x0#4 → ((∃ i, decode w = .ok i) ↔ w = 0x0000#16 ∨ w = 0x00EE#16)) ∧
  decode 0x01EE#16 = .error (.unimplemented 0x01EE#16) ∧
  decode 0x0EEE#16 = .error (.unimplemented 0x0EEE#16) ∧
  decode 0x00FE#16 = .error (.unimplemented 0x00FE#16) ∧
  decode 0x000E#16 = .error (.unimplemented 0x000E#16) ∧
  decode 0x0100#16 = .error (.unimplemented 0x0100#16) ∧
  decode 0x0010#16 = .error (.unimplemented 0x0010#16)

/-- The table of rule R66 by class, but for its counts: which words of each class are instructions, and every other word,
dispatched in any state, raises UnimplementedOpcode with itself. -/
def Obligations.ImplementedWordsByClass : Prop :=
  ∀ w : Word,
    ((∃ i, decode w = .ok i) ↔
      (w.toNat / 4096 = 0x0 ∧ (w.toNat = 0x0000 ∨ w.toNat = 0x00EE)) ∨
      w.toNat / 4096 = 0x2 ∨
      (w.toNat / 4096 = 0x8 ∧ w.toNat % 16 = 0x4)) ∧
    ((¬ ∃ i, decode w = .ok i) → decode w = .error (.unimplemented w) ∧
      ∀ s : State, dispatchWord w s = .next (s.raise (.unimplementedOpcode w)))

/-- Rule R67: every word maps to exactly one outcome, its instruction or the failure; no step of a running core leaves the
state as it was; and ADD with `V[y]` = 0 keeps `V[x]` (`x` not 15) and still overwrites `V[15]` with 0.  That `V[15]`
ends 0 at `x` = 15 too rests on the order of ADD's two writes, decision D9 of the spec (log entry 9, DEDUCED). -/
def Obligations.NoSilentNoOps : Prop :=
  (∀ w : Word,
    (∃ i, decode w = .ok i ∧ (∀ j, decode w = .ok j → j = i) ∧ ∀ s : State, dispatchWord w s = exec i s) ∨
    ((∀ i, decode w ≠ .ok i) ∧ ∀ s : State, dispatchWord w s = .next (s.raise (.unimplementedOpcode w)))) ∧
  (∀ s t : State, s.runState = .running → step s = .next t → t ≠ s) ∧
  ∀ (x y : RegIdx) (s : State), s.readV y = 0#8 →
    ∃ t, exec (.add x y) s = .next t ∧ t.readV 15 = 0#8 ∧ (x ≠ 15 → t.readV x = s.readV x)

/-- The operand ranges of rules R71 and R73 (the syntax is decision D11 of the spec): a written form is an instruction
exactly when it is well-formed, and then it is that instruction's own written form. -/
def Obligations.WrittenFormsAreInstructionsWhenInRange : Prop :=
  ∀ (w : Written) (i : Instr), w.toInstr = some i ↔ w.wellFormed = true ∧ i.written = w

/-! ### Fetch and the frame of a step -/

/-- Rule R42: at every address where a fetch is legal, odd or even, the opcode is `256 * mem[pc] + mem[pc+1]`, the byte
at the lower address holding `c` and `x` and the other one `y` and `d`. -/
def Obligations.FetchIsBigEndian : Prop :=
  ∀ s : State, s.pc.toNat + 1 ≤ 0xFFF →
    ∃ w, s.fetch = some w ∧
      w.toNat = 256 * (s.mem.read s.pc.toNat).toNat + (s.mem.read (s.pc.toNat + 1)).toNat ∧
      (s.mem.read s.pc.toNat).toNat = 16 * (fieldC w).toNat + (fieldX w).val ∧
      (s.mem.read (s.pc.toNat + 1)).toNat = 16 * (fieldY w).val + (fieldD w).toNat

/-- Rule R44: a fetch is legal exactly when `pc + 1 <= 0xFFF`; elsewhere, up to 0xFFFF, the step raises OutOfBoundsFetch
whatever memory holds. -/
def Obligations.FetchIsLegalUpToTheLastFullSlot : Prop :=
  ∀ s : State, s.runState = .running →
    (s.pc.toNat + 1 ≤ 0xFFF → (∃ w, s.fetch = some w) ∧ step s ≠ .next (s.raise .outOfBoundsFetch)) ∧
    (0xFFF < s.pc.toNat + 1 →
      s.fetch = none ∧ ∀ m : Memory, step (s.setMem m) = .next ((s.setMem m).raise .outOfBoundsFetch))

/-- Rule R83: after a successful fetch, for every opcode, what is dispatched sees `pc + 2`, which is at most 0x1000 and
has not wrapped; after a failed fetch `pc` is not advanced. -/
def Obligations.AdvanceByTwoBeforeDispatch : Prop :=
  ∀ s : State, s.runState = .running →
    (∀ w, s.fetch = some w → ∃ u : State, step s = dispatchWord w u ∧ u = { s with pc := u.pc } ∧
      u.pc.toNat = s.pc.toNat + 2 ∧ u.pc.toNat ≤ 0x1000) ∧
    (s.fetch = none → ∃ t, step s = .next t ∧ t.pc = s.pc)

/-- A step runs the decoded instruction (rules R81, R85): when the two bytes at `pc` decode to `i`, the step is `exec` of
`i` in the state with `pc` two further. -/
def Obligations.StepRunsTheDecodedInstruction : Prop :=
  ∀ (s : State) (i : Instr), s.runState = .running → s.pc.toNat + 1 ≤ 0xFFF →
    decodeBytes [s.mem.read s.pc.toNat, s.mem.read (s.pc.toNat + 1)] = .ok (i, []) →
    step s = exec i { s with pc := s.pc + 2#16 }

/-- Rule R80 with the model's choice (log entry 10, DESIGN CHOICE): a core that is not RUNNING answers the same state; in
every state a step answers a next state, so the core is never stuck. -/
def Obligations.NotRunningCoreStaysAndNoCoreIsStuck : Prop :=
  (∀ s : State, s.runState ≠ .running → step s = .next s) ∧ ∀ s : State, ∃ t, step s = .next t

/-- The step is the function rule R87 writes out (the spec's own assembly of its rules), transcribed over the integers
with no use of the decoder or of the meanings.  Its fault numbers, zero payloads and write order in ADD are decisions D4,
D5 and D9 of the spec (log entries 4, 5 and 9, DEDUCED). -/
def Obligations.StepIsTheFunctionOfTheSpec : Prop :=
  ∀ s : State, s.runState = .running → step s = .next (ruleStep s)

/-- The table of rule R168 (the spec's own summary), row by row: `run_state` and `pc` after a step of a running core. -/
def Obligations.EveryWayAStepEnds : Prop :=
  ∀ s : State, s.runState = .running →
    ∃ t, step s = .next t ∧
      (s.pc.toNat ≥ 0xFFF → t.runState = .faulted ∧ t.pc = s.pc) ∧
      (s.pc.toNat < 0xFFF →
        let w := s.mem.readWord s.pc.toNat
        (∀ x y, decode w = .ok (.add x y) → t.runState = .running ∧ t.pc.toNat = s.pc.toNat + 2) ∧
        (∀ nnn, decode w = .ok (.call nnn) → s.sp.val < 16 → t.runState = .running ∧ t.pc.toNat = nnn.toNat) ∧
        (decode w = .ok .ret → ∀ i : Fin 16, i.val + 1 = s.sp.val → t.runState = .running ∧ t.pc = s.slot i) ∧
        (decode w = .ok .halt → t.runState = .halted ∧ t.pc.toNat = s.pc.toNat + 2) ∧
        (∀ nnn, decode w = .ok (.call nnn) → s.sp.val = 16 →
          t.runState = .faulted ∧ t.pc.toNat = s.pc.toNat + 2) ∧
        (decode w = .ok .ret → s.sp.val = 0 → t.runState = .faulted ∧ t.pc.toNat = s.pc.toNat + 2) ∧
        (decode w = .error (.unimplemented w) → t.runState = .faulted ∧ t.pc.toNat = s.pc.toNat + 2))

/-! ### The instructions: result, frame and completion -/

/-- Rule R100, whole: HALT completes in every state, `run_state` becomes HALTED and nothing else changes, at whatever
address its two zero bytes stand; after it no step changes anything. -/
def Obligations.HaltEndsTheRunAndChangesNothingElse : Prop :=
  decode 0x0000#16 = .ok .halt ∧
  (∀ s : State, ∃ t, exec .halt s = .next t ∧
    t.runState = .halted ∧ t.pc = s.pc ∧ t.sp = s.sp ∧
    (∀ j, t.readV j = s.readV j) ∧ (∀ i, t.slot i = s.slot i) ∧ (∀ a, t.mem.read a = s.mem.read a) ∧
    t.faultCause = s.faultCause ∧ t.faultInfo = s.faultInfo ∧
    ∀ u, step t = .next u → u = t) ∧
  ∀ s : State, s.runState = .running → s.pc.toNat ≤ 0xFFE →
    s.mem.read s.pc.toNat = 0x00#8 → s.mem.read (s.pc.toNat + 1) = 0x00#8 →
    ∃ t, step s = .next t ∧ t.runState = .halted ∧ t.pc.toNat = s.pc.toNat + 2 ∧ t.sp = s.sp ∧ t.V = s.V ∧
      t.stack = s.stack ∧ t.mem = s.mem

/-- Rule R110, whole: with `sp` below 16, CALL writes `pc` (its own address plus 2) to `stack[sp]`, adds 1 to `sp`, goes
to `nnn` and changes nothing else; with `sp` = 16 it raises StackOverflow, with no slot written, `sp` still 16 and
`pc` still the advanced value. -/
def Obligations.CallPushesAndGoesToItsTarget : Prop :=
  ∀ (nnn : Addr) (s : State),
    decode (BitVec.ofNat 16 (0x2000 + nnn.toNat)) = .ok (.call nnn) ∧
    (s.sp.val < 16 → ∃ t, exec (.call nnn) s = .next t ∧
      (∀ i : Fin 16, t.slot i = if i.val = s.sp.val then s.pc else s.slot i) ∧
      t.sp.val = s.sp.val + 1 ∧ t.pc.toNat = nnn.toNat ∧
      (∀ j, t.readV j = s.readV j) ∧ (∀ a, t.mem.read a = s.mem.read a) ∧
      t.runState = s.runState ∧ t.faultCause = s.faultCause ∧ t.faultInfo = s.faultInfo) ∧
    (s.sp.val = 16 → ∃ t, exec (.call nnn) s = .next t ∧ t = s.raise .stackOverflow ∧
      (∀ i, t.slot i = s.slot i) ∧ t.sp.val = 16 ∧ t.pc = s.pc ∧
      (∀ j, t.readV j = s.readV j) ∧ (∀ a, t.mem.read a = s.mem.read a))

/-- Rule R111, whole: with `sp` above 0, RETURN takes 1 from `sp`, loads `pc` from the slot just freed, clears no slot and
changes nothing else; with `sp` = 0 it raises StackUnderflow, with `sp` still 0 and `pc` still the advanced value. -/
def Obligations.ReturnPopsIntoThePc : Prop :=
  decode 0x00EE#16 = .ok .ret ∧
  ∀ s : State,
    (∀ k : Fin 16, s.sp.val = k.val + 1 → ∃ t, exec .ret s = .next t ∧
      t.pc = s.slot k ∧ t.sp.val = k.val ∧
      (∀ i, t.slot i = s.slot i) ∧ (∀ j, t.readV j = s.readV j) ∧ (∀ a, t.mem.read a = s.mem.read a) ∧
      t.runState = s.runState ∧ t.faultCause = s.faultCause ∧ t.faultInfo = s.faultInfo) ∧
    (s.sp.val = 0 → ∃ t, exec .ret s = .next t ∧ t = s.raise .stackUnderflow ∧
      (∀ i, t.slot i = s.slot i) ∧ t.sp.val = 0 ∧ t.pc = s.pc ∧
      (∀ j, t.readV j = s.readV j) ∧ (∀ a, t.mem.read a = s.mem.read a))

/-- Rule R130, whole: ADD completes in every state; `V[x]` is the sum mod 256 (where `x` is not 15), `V[15]` is the carry
on every execution, and nothing else changes.  That `V[15]` ends as the carry at `x` = 15 too rests on the order of the
two writes: conflict C3 and decision D9 of the spec (log entry 9, DEDUCED). -/
def Obligations.AddWritesTheSumAndTheCarry : Prop :=
  ∀ (x y : RegIdx) (s : State),
    decode (BitVec.ofNat 16 (0x8004 + 256 * x.val + 16 * y.val)) = .ok (.add x y) ∧
    ∃ t, exec (.add x y) s = .next t ∧
      (x ≠ 15 → (t.readV x).toNat = ((s.readV x).toNat + (s.readV y).toNat) % 256) ∧
      (t.readV 15).toNat = (if (s.readV x).toNat + (s.readV y).toNat > 255 then 1 else 0) ∧
      (∀ j, j ≠ x → j ≠ 15 → t.readV j = s.readV j) ∧
      t.pc = s.pc ∧ t.sp = s.sp ∧ (∀ i, t.slot i = s.slot i) ∧ (∀ a, t.mem.read a = s.mem.read a) ∧
      t.runState = s.runState ∧ t.faultCause = s.faultCause ∧ t.faultInfo = s.faultInfo

/-- Rule R131: the sum and its carry for all operands, with `a + b = 256 * carry + result`; the carry is the unsigned one,
and the sum of 127 and 1 has none; an ADD whose operands are `a` and `b` gives them, and never traps.  That `V[15]` ends
as the carry at `x` = 15 too is conflict C3 and decision D9 of the spec (log entry 9, DEDUCED). -/
def Obligations.AdditionLawForAllOperands : Prop :=
  ∀ a b : Byte,
    (sumResult a b).toNat = (a.toNat + b.toNat) % 256 ∧
    (carryOut a b).toNat = (if a.toNat + b.toNat > 255 then 1 else 0) ∧
    ((carryOut a b).toNat = 1 ↔ a.toNat + b.toNat ≥ 256) ∧
    a.toNat + b.toNat = 256 * (carryOut a b).toNat + (sumResult a b).toNat ∧
    (sumResult 127#8 1#8 = 128#8 ∧ carryOut 127#8 1#8 = 0#8) ∧
    ∀ (x y : RegIdx) (s : State), s.readV x = a → s.readV y = b →
      ∃ t, exec (.add x y) s = .next t ∧ t.runState = s.runState ∧ t.readV 15 = carryOut a b ∧
        (x ≠ 15 → t.readV x = sumResult a b)

/-- The table of rule R133, row by row, with a, b, f the old `V[x]`, `V[y]`, `V[15]`.  The two rows with `x` = 15, where
the carry stays and the sum is lost, rest on decision D9 of the spec (rule R132; log entry 9, DEDUCED). -/
def Obligations.AddWithAliasedOperands : Prop :=
  ∀ (x y : RegIdx) (s : State), ∃ t, exec (.add x y) s = .next t ∧
    let a := (s.readV x).toNat
    let b := (s.readV y).toNat
    let f := (s.readV 15).toNat
    (x ≠ y → x ≠ 15 → y ≠ 15 →
      (t.readV x).toNat = (a + b) % 256 ∧ (t.readV 15).toNat = (if a + b > 255 then 1 else 0) ∧
      t.readV y = s.readV y) ∧
    (x = y → x ≠ 15 →
      (t.readV x).toNat = (2 * a) % 256 ∧ (t.readV 15).toNat = (if a ≥ 128 then 1 else 0)) ∧
    (x ≠ 15 → y = 15 →
      (t.readV x).toNat = (a + f) % 256 ∧ (t.readV 15).toNat = (if a + f > 255 then 1 else 0)) ∧
    (x = 15 → y ≠ 15 →
      (t.readV 15).toNat = (if f + b > 255 then 1 else 0) ∧ t.readV y = s.readV y) ∧
    (x = 15 → y = 15 → (t.readV 15).toNat = (if f ≥ 128 then 1 else 0))

/-- Rule R134: there is no carry in.  Whatever `V[15]` held, an ADD that does not name it ends in the same state. -/
def Obligations.AddHasNoCarryIn : Prop :=
  ∀ (x y : RegIdx) (s : State) (v : Byte), x ≠ 15 → y ≠ 15 →
    ∃ t, exec (.add x y) s = .next t ∧ exec (.add x y) (s.writeV 15 v) = .next t

/-! ### Call and return together -/

/-- Rule R112: a CALL at address `a` with `sp` = k < 16 whose target holds RETURN; after the two steps `pc` = a + 2, `sp`
= k, `stack[k]` = a + 2, and every other slot, every register and all of memory are as before. -/
def Obligations.CallThenReturnComesBack : Prop :=
  ∀ (s : State) (nnn : Addr) (k : Fin 16), s.runState = .running → s.sp.val = k.val →
    s.nextInstr = some (.call nnn) → nnn.toNat ≤ 0xFFE → s.mem.readWord nnn.toNat = 0x00EE#16 →
    ∃ t, runFor 2 s = .next t ∧ t.runState = .running ∧
      t.pc.toNat = s.pc.toNat + 2 ∧ t.sp.val = k.val ∧ (t.slot k).toNat = s.pc.toNat + 2 ∧
      (∀ i, i ≠ k → t.slot i = s.slot i) ∧ (∀ j, t.readV j = s.readV j) ∧ ∀ a, t.mem.read a = s.mem.read a

/-- Rule R113: in a history from `sp` = 0 with no RETURN in it, `sp` counts the CALLs and they fill the slots in order;
a CALL below depth 16 succeeds, and one at depth 16 raises StackOverflow; a RETURN at depth 0 raises StackUnderflow. -/
def Obligations.SixteenNestedCallsAndNoMore : Prop :=
  (∀ (f : Nat → State) (n : Nat), (f 0).sp.val = 0 →
    (∀ k < n, step (f k) = .next (f (k + 1)) ∧ (f k).nextInstr ≠ some .ret) →
    (∀ k ≤ n, (f k).runState = .running) →
    (f n).sp.val = callsIn f n ∧
    (∀ k < n, (f k).atCall = true → ∀ i : Fin 16, i.val = callsIn f k → (f n).slot i = (f k).pc + 2#16) ∧
    ((f n).atCall = true → callsIn f n < 16 →
      ∃ t, step (f n) = .next t ∧ t.runState = .running ∧ t.sp.val = callsIn f n + 1) ∧
    ((f n).atCall = true → callsIn f n = 16 → step (f n) = .next ((f n).advance.raise .stackOverflow))) ∧
  ∀ s : State, s.runState = .running → s.nextInstr = some .ret → s.sp.val = 0 →
    step s = .next (s.advance.raise .stackUnderflow)

/-- Rule R115 (the spec's own derivation): a target is not checked at the transfer.  CALL 0xFFF succeeds and the next step
raises OutOfBoundsFetch with `pc` = 0xFFF; so does a RETURN to any saved value of 0xFFF or more. -/
def Obligations.TargetsAreCheckedOnlyByTheNextFetch : Prop :=
  (∀ s : State, s.runState = .running → s.nextInstr = some (.call 0xFFF#12) → s.sp.val < 16 →
    ∃ t, step s = .next t ∧ t.runState = .running ∧ t.pc.toNat = 0xFFF ∧ t.sp.val = s.sp.val + 1 ∧
      step t = .next (t.raise .outOfBoundsFetch)) ∧
  ∀ (s : State) (k : Fin 16), s.runState = .running → s.nextInstr = some .ret → s.sp.val = k.val + 1 →
    0xFFF ≤ (s.slot k).toNat →
    ∃ t, step s = .next t ∧ t.runState = .running ∧ t.pc = s.slot k ∧ t.sp.val = k.val ∧
      step t = .next (t.raise .outOfBoundsFetch)

/-! ### Faults -/

/-- Rule R159: a step that ends FAULTED has changed no register, slot, stack pointer or byte of memory; `pc` has advanced,
and not even that where the fetch itself failed; and no later instruction begins. -/
def Obligations.FaultsArePrecise : Prop :=
  ∀ s t : State, s.runState = .running → step s = .next t → t.runState = .faulted →
    (∀ j, t.readV j = s.readV j) ∧ (∀ i, t.slot i = s.slot i) ∧ t.sp = s.sp ∧
    (∀ a, t.mem.read a = s.mem.read a) ∧
    ((s.fetch = none ∧ t.pc = s.pc) ∨ (s.fetch ≠ none ∧ t.pc.toNat = s.pc.toNat + 2)) ∧
    ∀ u, step t = .next u → u = t

/-- The four faults and their records (rules R151 to R158; the codes and the zero payloads are decisions D4 and D5 of the
spec, log entries 4 and 5): each cause is recorded exactly under its own condition, so at most one condition holds in
a step, and `fault_info` is the opcode for UnimplementedOpcode and 0 for the other three. -/
def Obligations.EachFaultExactlyUnderItsCondition : Prop :=
  ∀ s : State, s.runState = .running →
    ∃ t, step s = .next t ∧
      let w := s.mem.readWord s.pc.toNat
      (t.runState = .faulted ∧ t.faultCause = 1#3 ↔ 0xFFF < s.pc.toNat + 1) ∧
      (t.runState = .faulted ∧ t.faultCause = 2#3 ↔
        s.pc.toNat + 1 ≤ 0xFFF ∧ (∃ nnn, decode w = .ok (.call nnn)) ∧ s.sp.val = 16) ∧
      (t.runState = .faulted ∧ t.faultCause = 3#3 ↔
        s.pc.toNat + 1 ≤ 0xFFF ∧ decode w = .ok .ret ∧ s.sp.val = 0) ∧
      (t.runState = .faulted ∧ t.faultCause = 4#3 ↔ s.pc.toNat + 1 ≤ 0xFFF ∧ ∀ i, decode w ≠ .ok i) ∧
      (t.runState = .faulted →
        (t.faultCause = 1#3 ∨ t.faultCause = 2#3 ∨ t.faultCause = 3#3 ∨ t.faultCause = 4#3) ∧
        t.faultInfo = if t.faultCause = 4#3 then w else 0#16) ∧
      (t.runState ≠ .faulted → t.faultCause = s.faultCause ∧ t.faultInfo = s.faultInfo)

/-! ### Who touches what -/

/-- The table of rule R35 (the spec's own derivation) for a step of the core: only ADD writes a general register, only
CALL a slot, only CALL and RETURN `sp`; nothing writes memory; only a fault writes the record; and a core that is not
RUNNING keeps `pc`. -/
def Obligations.StepTouchesOnlyWhatItMay : Prop :=
  ∀ s t : State, step s = .next t →
    ((∃ j, t.readV j ≠ s.readV j) → s.runState = .running ∧ ∃ x y, s.nextInstr = some (.add x y) ∧
      ∀ j, t.readV j ≠ s.readV j → j = x ∨ j = 15) ∧
    ((∃ i, t.slot i ≠ s.slot i) → s.runState = .running ∧ (∃ nnn, s.nextInstr = some (.call nnn)) ∧
      ∀ i, t.slot i ≠ s.slot i → i.val = s.sp.val) ∧
    (t.sp ≠ s.sp → s.runState = .running ∧
      ((∃ nnn, s.nextInstr = some (.call nnn)) ∧ t.sp.val = s.sp.val + 1 ∨
       s.nextInstr = some .ret ∧ t.sp.val + 1 = s.sp.val)) ∧
    (∀ a, t.mem.read a = s.mem.read a) ∧
    (t.faultCause ≠ s.faultCause ∨ t.faultInfo ≠ s.faultInfo → s.runState = .running ∧ t.runState = .faulted) ∧
    (t.pc ≠ s.pc → s.runState = .running)

/-- Rule R53 (the spec's own derivation): memory is constant during a run, however long. -/
def Obligations.MemoryIsConstantDuringARun : Prop :=
  ∀ (n : Nat) (s t : State), runFor n s = .next t → t.mem = s.mem ∧ ∀ a, t.mem.read a = s.mem.read a

/-- Rules R41 and R45: the only bytes a step reads are the two at `pc` and `pc + 1`.  Two states that differ only in other
bytes take steps that differ only in those. -/
def Obligations.StepReadsOnlyTheTwoBytesAtPc : Prop :=
  ∀ s t s' : State, s.sameButMem t → t.mem.read s.pc.toNat = s.mem.read s.pc.toNat →
    t.mem.read (s.pc.toNat + 1) = s.mem.read (s.pc.toNat + 1) → step s = .next s' →
    step t = .next (s'.setMem t.mem)

/-- Rule R116 (the spec's own derivation): there is no data-dependent control flow.  Two runs from states that differ only
in the general registers differ only in them after every number of steps. -/
def Obligations.ControlFlowNeverDependsOnRegisters : Prop :=
  ∀ (n : Nat) (s t s' : State), s.sameButV t → runFor n s = .next s' →
    ∃ t', runFor n t = .next t' ∧ s'.sameButV t'

/-- Rule R28 (the spec's own derivation): the free slots are invisible to programs.  Two runs from states that differ only
in slots at `sp` or above differ only in such slots after every number of steps. -/
def Obligations.FreeSlotsAreInvisibleToPrograms : Prop :=
  ∀ (n : Nat) (s t s' : State), s.sameButFreeSlots t → runFor n s = .next s' →
    ∃ t', runFor n t = .next t' ∧ s'.sameButFreeSlots t'

/-! ### The host, the life of a run, reset -/

/-- The table of rule R183 with the windows of rule R184 (decision D6 of the spec, log entry 11): each operation in its
window has its effect and no other, and outside it is turned away and changes nothing; and Reset, at any time, is
decision D14 (log entry 11). -/
def Obligations.HostOperationsKeepToTheirWindows : Prop :=
  ∀ s : State, s.mem.wf →
    (s.runState = .idle →
      (∀ a v, ∃ t, hostStep (.writeMem a v) s = (.done, t) ∧ t = s.setMem t.mem ∧ t.mem.wf ∧
        ∀ b, t.mem.read b = if b = a.toNat then v else s.mem.read b) ∧
      (∀ i v, ∃ t, hostStep (.writeReg i v) s = (.done, t) ∧ t = s.setV t.V ∧
        ∀ j, t.readV j = if j = i then v else s.readV j) ∧
      hostStep .start s = (.done, { s with runState := .running })) ∧
    (s.runState ≠ .idle →
      (∀ a v, hostStep (.writeMem a v) s = (.turnedAway, s)) ∧
      (∀ i v, hostStep (.writeReg i v) s = (.turnedAway, s)) ∧
      hostStep .start s = (.turnedAway, s)) ∧
    (s.runState ≠ .running →
      (∀ a, hostStep (.readMem a) s = (.byte (s.mem.read a.toNat), s)) ∧
      (∀ i, hostStep (.readReg i) s = (.byte (s.readV i), s)) ∧
      hostStep .readStatus s =
        (.status ⟨s.runState, s.faultCause, s.faultInfo, s.pc, s.sp, s.stack⟩, s)) ∧
    (s.runState = .running → ∀ op, op ≠ .reset → hostStep op s = (.turnedAway, s)) ∧
    hostStep .reset s = (.done, State.reset)

/-- Rule R185 (decision D10 of the spec): HALTED and FAULTED are left by Reset only. -/
def Obligations.OnlyResetLeavesATerminalState : Prop :=
  ∀ s : State, s.over →
    (∀ t, step s = .next t → t = s) ∧
    (∀ op, op ≠ .reset → (hostStep op s).2 = s) ∧
    hostStep .start s = (.turnedAway, s) ∧
    (hostStep .reset s).2.runState = .idle

/-- The transitions of rule R181 (decision D3 of the spec): a change of `run_state` is one of the table's, made by the
agent the table names. -/
def Obligations.RunStateChangesOnlyAsTheLifecycleSays : Prop :=
  (∀ s t : State, step s = .next t → t.runState ≠ s.runState → s.runState = .running ∧
    (t.runState = .halted ∧ s.nextInstr = some .halt ∨
     t.runState = .faulted ∧ (t = s.raise .outOfBoundsFetch ∨ t = s.advance.raise .stackOverflow ∨
       t = s.advance.raise .stackUnderflow ∨ ∃ w, t = s.advance.raise (.unimplementedOpcode w)))) ∧
  ∀ (op : HostOp) (s : State), (hostStep op s).2.runState ≠ s.runState →
    op = .reset ∧ (hostStep op s).2.runState = .idle ∨
    op = .start ∧ s.runState = .idle ∧ (hostStep op s).2.runState = .running

/-- Reset in any state leaves the values of rule R34: all registers, memory, `pc` and `sp` zero; and, by decisions D3, D4,
D5 and D8 of the spec (log entries 3 to 6), every slot zero, IDLE, and nothing recorded.  That Reset may be applied in
any state, and then clears everything, memory included, is decision D14 of the spec (rule R180; log entry 11,
DEDUCED). -/
def Obligations.ResetLeavesEveryPieceOfStateAtItsValue : Prop :=
  ∀ s : State, ∃ t, hostStep .reset s = (.done, t) ∧
    (∀ j, t.readV j = 0#8) ∧ (∀ a, t.mem.read a = 0#8) ∧ t.pc = 0#16 ∧ t.sp.val = 0 ∧
    (∀ i, t.slot i = 0#16) ∧ t.runState = .idle ∧ t.faultCause = 0#3 ∧ t.faultInfo = 0#16

/-! ### The invariant

`State.Inv` rests on choices as well as on rules: its canonical memory on log entry 7 (DESIGN CHOICE); the numbers and the
zero payloads of the record, and nothing recorded in a run that has not failed, on decisions D4 and D5 of the spec (log
entries 4 and 5, DEDUCED); `pc` = 0 and `sp` = 0 while IDLE on rule R184, which is decision D6 (log entry 11, DEDUCED);
the run states themselves on decision D3 (log entry 3, DEDUCED). -/

/-- The invariant holds right after reset.
It rests on log entries 3, 4, 5 and 11 (decisions D3, D4, D5 and D6 of the spec, DEDUCED) and 7 (DESIGN CHOICE), as said
above. -/
def Obligations.InvariantHoldsAtReset : Prop := State.reset.Inv

/-- Every step keeps the invariant, from every state that meets it.
It rests on log entries 3, 4, 5 and 11 (decisions D3, D4, D5 and D6 of the spec, DEDUCED) and 7 (DESIGN CHOICE), as said
above. -/
def Obligations.StepKeepsTheInvariant : Prop :=
  ∀ s t : State, s.Inv → step s = .next t → t.Inv

/-- Every host operation keeps the invariant, accepted or turned away.
It rests on log entries 3, 4, 5 and 11 (decisions D3, D4, D5 and D6 of the spec, DEDUCED) and 7 (DESIGN CHOICE), as said
above; the operations and their windows are decisions D6 and D14 (log entry 11). -/
def Obligations.HostOperationKeepsTheInvariant : Prop :=
  ∀ (op : HostOp) (s : State), s.Inv → (hostStep op s).2.Inv

/-- In every state that reset, steps and host operations reach, `pc` is at most 0x1000, a fetch that fails stands at 0xFFF
or 0x1000, and the advance never wraps (rule R25, the spec's own derivation); at a HALTED or FAULTED end the record is
true of the state (rules R151 to R154, R188).  The numbers of the causes and the zero payloads are decisions D4 and D5 of
the spec (rules R155, R156; log entries 4 and 5, DEDUCED), and what the host may do, here any load before Start, is
decisions D6 and D14 (log entry 11, DEDUCED). -/
def Obligations.ReachableStatesNeverWrapAndRecordTheTruth : Prop :=
  ∀ s : State, Reachable s →
    s.pc.toNat ≤ 0x1000 ∧
    (s.fetch = none → s.pc = 0x0FFF#16 ∨ s.pc = 0x1000#16) ∧
    (s.fetch ≠ none → s.advance.pc.toNat = s.pc.toNat + 2) ∧
    (s.succeeded → s.faultCause = 0#3 ∧ s.lastWord = some 0x0000#16) ∧
    (s.runState = .faulted → s.faultRecordTrue)

/-! ### The end of a run -/

/-- Rule R189 (the spec's own derivation): every run ends, from every state whatever its memory and stack hold. -/
def Obligations.EveryRunEnds : Prop :=
  ∀ s : State, s.runState = .running → ∃ (n : Nat) (t : State), runFor n s = .next t ∧ t.over

/-- The bound of rule R189 (the spec's own derivation): a run that starts with an empty stack ends before 2049^17 steps. -/
def Obligations.RunFromAnEmptyStackEndsWithinTheBound : Prop :=
  ∀ s : State, s.runState = .running → s.sp.val = 0 →
    ∃ (n : Nat) (t : State), n < 2049 ^ 17 ∧ runFor n s = .next t ∧ t.over

/-! ### The model's own forms -/

/-- Memories in canonical form with the same bytes are the same data (the form is the model's own, log entry 7). -/
def Obligations.CanonicalMemoriesWithTheSameBytesAreEqual : Prop :=
  ∀ m₁ m₂ : Memory, m₁.wf → m₂.wf → (∀ a, m₁.read a = m₂.read a) → m₁ = m₂

/-- A word placed where the next fetch reads is the word the next step runs, and it is read as the decoder reads it (the
load and the start are the model's own, log entry 8). -/
def Obligations.PlacedWordIsTheNextOneRun : Prop :=
  ∀ (s : State) (w : Word), s.mem.wf →
    (∃ u : State, step (s.withFetchWord 16 w.toNat) = dispatchWord w u ∧
      u.V = s.V ∧ u.stack = s.stack ∧ u.sp = s.sp ∧ u.runState = .running ∧
      (s.fetch ≠ none → u.pc.toNat = s.pc.toNat + 2)) ∧
    ∀ i, decodeTableWord 16 w.toNat = some i ↔ decode w = .ok i
end

