-- ==== Sys2Proof/Laws/Encoding.lean ====
section
/-! SUPPORT. The small lemmas of the byte order and of the fields, as integers. -/

namespace Sys2Proof

/-- The number two bytes make (rule R42). -/
theorem joinBytes_toNat (b0 b1 : Byte) : (joinBytes b0 b1).toNat = 256 * b0.toNat + b1.toNat := by
  have := b1.isLt
  rw [joinBytes, BitVec.toNat_append, ← Nat.shiftLeft_add_eq_or_of_lt this, Nat.shiftLeft_eq]
  omega

/-- A word is its two bytes, the more significant first. -/
@[simp] theorem joinBytes_high_low (w : Word) : joinBytes (highByte w) (lowByte w) = w := by
  apply BitVec.eq_of_toNat_eq
  have := w.isLt
  rw [joinBytes_toNat, highByte, lowByte, BitVec.extractLsb'_toNat, BitVec.extractLsb'_toNat]
  simp only [Nat.shiftRight_eq_div_pow]
  omega

/-! ### The fields and the rows, as integers -/

@[simp] theorem fieldC_toNat (w : Word) : (fieldC w).toNat = w.toNat / 4096 := by
  have := w.isLt
  rw [fieldC, BitVec.extractLsb'_toNat, Nat.shiftRight_eq_div_pow]
  omega

@[simp] theorem fieldX_val (w : Word) : (fieldX w).val = w.toNat / 256 % 16 := by
  show (w.extractLsb' 8 4).toNat = _
  rw [BitVec.extractLsb'_toNat, Nat.shiftRight_eq_div_pow]

@[simp] theorem fieldY_val (w : Word) : (fieldY w).val = w.toNat / 16 % 16 := by
  show (w.extractLsb' 4 4).toNat = _
  rw [BitVec.extractLsb'_toNat, Nat.shiftRight_eq_div_pow]

@[simp] theorem fieldD_toNat (w : Word) : (fieldD w).toNat = w.toNat % 16 := by
  rw [fieldD, BitVec.extractLsb'_toNat, Nat.shiftRight_zero]

@[simp] theorem fieldNNN_toNat (w : Word) : (fieldNNN w).toNat = w.toNat % 4096 := by
  rw [fieldNNN, BitVec.extractLsb'_toNat, Nat.shiftRight_zero]

theorem haltRow_selects (w : Word) : haltRow.selects w = true ↔ w.toNat = 0x0000 := by
  rw [OpcodeRow.selects, beq_iff_eq, haltRow, BitVec.toNat_eq]
  have h : w &&& 0xFFFF#16 = w := BitVec.and_allOnes
  rw [h]
  rfl

theorem retRow_selects (w : Word) : retRow.selects w = true ↔ w.toNat = 0x00EE := by
  rw [OpcodeRow.selects, beq_iff_eq, retRow, BitVec.toNat_eq]
  have h : w &&& 0xFFFF#16 = w := BitVec.and_allOnes
  rw [h]
  rfl

theorem callRow_selects (w : Word) : callRow.selects w = true ↔ w.toNat / 4096 = 0x2 := by
  have hw := w.isLt
  have h : w &&& 0xF000#16 = (w >>> 12) <<< 12 := by
    apply BitVec.eq_of_getLsbD_eq
    intro i hi
    interval_cases i <;> simp
  rw [OpcodeRow.selects, beq_iff_eq, callRow, h, BitVec.toNat_eq, BitVec.toNat_shiftLeft, BitVec.toNat_ushiftRight,
    Nat.shiftLeft_eq, Nat.shiftRight_eq_div_pow]
  show _ = 0x2000 ↔ _
  omega

theorem addRow_selects (w : Word) : addRow.selects w = true ↔ w.toNat / 4096 = 0x8 ∧ w.toNat % 16 = 0x4 := by
  have hw := w.isLt
  have h : w &&& 0xF00F#16 = (w >>> 12) <<< 12 ||| (w <<< 12) >>> 12 := by
    apply BitVec.eq_of_getLsbD_eq
    intro i hi
    interval_cases i <;> simp
  have hl : ((w <<< 12) >>> 12).toNat = w.toNat % 16 := by
    rw [BitVec.toNat_ushiftRight, BitVec.toNat_shiftLeft, Nat.shiftLeft_eq, Nat.shiftRight_eq_div_pow]
    omega
  have hh : ((w >>> 12) <<< 12).toNat = (w.toNat / 4096) <<< 12 := by
    rw [BitVec.toNat_shiftLeft, BitVec.toNat_ushiftRight, Nat.shiftRight_eq_div_pow, Nat.shiftLeft_eq]
    omega
  rw [OpcodeRow.selects, beq_iff_eq, addRow, h, BitVec.toNat_eq, BitVec.toNat_or, hl, hh,
    ← Nat.shiftLeft_add_eq_or_of_lt (show w.toNat % 16 < 2 ^ 12 by omega), Nat.shiftLeft_eq]
  show _ = 0x8004 ↔ _
  omega

theorem encode_call_toNat (nnn : Addr) : (encode (.call nnn)).toNat = 0x2000 + nnn.toNat := by
  have := nnn.isLt
  exact Nat.mod_eq_of_lt (show 0x2000 + nnn.toNat < 65536 by omega)

theorem encode_add_toNat (x y : RegIdx) : (encode (.add x y)).toNat = 0x8004 + 256 * x.val + 16 * y.val := by
  have := x.isLt
  have := y.isLt
  exact Nat.mod_eq_of_lt (show 0x8004 + 256 * x.val + 16 * y.val < 65536 by omega)

/-! ### What the decoder answers, as integers -/

/-- Everything decoding a word can answer: an instruction, or the rejection that carries the word. -/
theorem decode_cases (w : Word) : (∃ i, decode w = .ok i) ∨ decode w = .error (.unimplemented w) := by
  unfold decode
  repeat' split
  all_goals simp

theorem decode_eq_halt (w : Word) : decode w = .ok .halt ↔ w.toNat = 0x0000 := by
  rw [← haltRow_selects]
  unfold decode
  repeat' split
  all_goals simp_all

theorem decode_eq_ret (w : Word) : decode w = .ok .ret ↔ w.toNat = 0x00EE := by
  have h1 := haltRow_selects w
  have h2 := retRow_selects w
  unfold decode
  repeat' split
  all_goals simp_all

theorem decode_eq_call (w : Word) (nnn : Addr) :
    decode w = .ok (.call nnn) ↔ w.toNat / 4096 = 0x2 ∧ nnn = fieldNNN w := by
  rw [← callRow_selects]
  by_cases h : callRow.selects w = true
  · have hc := (callRow_selects w).1 h
    have h1 : ¬ haltRow.selects w = true := by rw [haltRow_selects]; omega
    have h2 : ¬ retRow.selects w = true := by rw [retRow_selects]; omega
    simp [decode, h, h1, h2, eq_comm]
  · unfold decode
    repeat' split
    all_goals simp_all

theorem decode_eq_add (w : Word) (x y : RegIdx) :
    decode w = .ok (.add x y) ↔ (w.toNat / 4096 = 0x8 ∧ w.toNat % 16 = 0x4) ∧ x = fieldX w ∧ y = fieldY w := by
  rw [← addRow_selects]
  by_cases h : addRow.selects w = true
  · have ha := (addRow_selects w).1 h
    have h1 : ¬ haltRow.selects w = true := by rw [haltRow_selects]; omega
    have h2 : ¬ retRow.selects w = true := by rw [retRow_selects]; omega
    have h3 : ¬ callRow.selects w = true := by rw [callRow_selects]; omega
    simp [decode, h, h1, h2, h3, eq_comm]
  · unfold decode
    repeat' split
    all_goals simp_all

end Sys2Proof
end

