-- ==== Sys2Proof/Laws/State.lean ====
section
/-! SUPPORT. One lemma for each field under each update, and what the named operations leave as it was. -/

namespace Sys2Proof.Machine

/-! ### The field updates -/

@[simp] theorem State.setV_V (s : State) (v : Vector Byte 16) : (s.setV v).V = v := rfl
@[simp] theorem State.setV_pc (s : State) (v : Vector Byte 16) : (s.setV v).pc = s.pc := rfl
@[simp] theorem State.setV_stack (s : State) (v : Vector Byte 16) : (s.setV v).stack = s.stack := rfl
@[simp] theorem State.setV_sp (s : State) (v : Vector Byte 16) : (s.setV v).sp = s.sp := rfl
@[simp] theorem State.setV_mem (s : State) (v : Vector Byte 16) : (s.setV v).mem = s.mem := rfl
@[simp] theorem State.setV_runState (s : State) (v : Vector Byte 16) : (s.setV v).runState = s.runState := rfl
@[simp] theorem State.setV_faultCause (s : State) (v : Vector Byte 16) : (s.setV v).faultCause = s.faultCause := rfl
@[simp] theorem State.setV_faultInfo (s : State) (v : Vector Byte 16) : (s.setV v).faultInfo = s.faultInfo := rfl

@[simp] theorem State.setPc_V (s : State) (w : Word) : (s.setPc w).V = s.V := rfl
@[simp] theorem State.setPc_pc (s : State) (w : Word) : (s.setPc w).pc = w := rfl
@[simp] theorem State.setPc_stack (s : State) (w : Word) : (s.setPc w).stack = s.stack := rfl
@[simp] theorem State.setPc_sp (s : State) (w : Word) : (s.setPc w).sp = s.sp := rfl
@[simp] theorem State.setPc_mem (s : State) (w : Word) : (s.setPc w).mem = s.mem := rfl
@[simp] theorem State.setPc_runState (s : State) (w : Word) : (s.setPc w).runState = s.runState := rfl
@[simp] theorem State.setPc_faultCause (s : State) (w : Word) : (s.setPc w).faultCause = s.faultCause := rfl
@[simp] theorem State.setPc_faultInfo (s : State) (w : Word) : (s.setPc w).faultInfo = s.faultInfo := rfl

@[simp] theorem State.setStack_V (s : State) (v : Vector Word 16) : (s.setStack v).V = s.V := rfl
@[simp] theorem State.setStack_pc (s : State) (v : Vector Word 16) : (s.setStack v).pc = s.pc := rfl
@[simp] theorem State.setStack_stack (s : State) (v : Vector Word 16) : (s.setStack v).stack = v := rfl
@[simp] theorem State.setStack_sp (s : State) (v : Vector Word 16) : (s.setStack v).sp = s.sp := rfl
@[simp] theorem State.setStack_mem (s : State) (v : Vector Word 16) : (s.setStack v).mem = s.mem := rfl
@[simp] theorem State.setStack_runState (s : State) (v : Vector Word 16) : (s.setStack v).runState = s.runState := rfl
@[simp] theorem State.setStack_faultCause (s : State) (v : Vector Word 16) : (s.setStack v).faultCause = s.faultCause := rfl
@[simp] theorem State.setStack_faultInfo (s : State) (v : Vector Word 16) : (s.setStack v).faultInfo = s.faultInfo := rfl

@[simp] theorem State.setSp_V (s : State) (n : Fin 17) : (s.setSp n).V = s.V := rfl
@[simp] theorem State.setSp_pc (s : State) (n : Fin 17) : (s.setSp n).pc = s.pc := rfl
@[simp] theorem State.setSp_stack (s : State) (n : Fin 17) : (s.setSp n).stack = s.stack := rfl
@[simp] theorem State.setSp_sp (s : State) (n : Fin 17) : (s.setSp n).sp = n := rfl
@[simp] theorem State.setSp_mem (s : State) (n : Fin 17) : (s.setSp n).mem = s.mem := rfl
@[simp] theorem State.setSp_runState (s : State) (n : Fin 17) : (s.setSp n).runState = s.runState := rfl
@[simp] theorem State.setSp_faultCause (s : State) (n : Fin 17) : (s.setSp n).faultCause = s.faultCause := rfl
@[simp] theorem State.setSp_faultInfo (s : State) (n : Fin 17) : (s.setSp n).faultInfo = s.faultInfo := rfl

@[simp] theorem State.setMem_V (s : State) (m : Memory) : (s.setMem m).V = s.V := rfl
@[simp] theorem State.setMem_pc (s : State) (m : Memory) : (s.setMem m).pc = s.pc := rfl
@[simp] theorem State.setMem_stack (s : State) (m : Memory) : (s.setMem m).stack = s.stack := rfl
@[simp] theorem State.setMem_sp (s : State) (m : Memory) : (s.setMem m).sp = s.sp := rfl
@[simp] theorem State.setMem_mem (s : State) (m : Memory) : (s.setMem m).mem = m := rfl
@[simp] theorem State.setMem_runState (s : State) (m : Memory) : (s.setMem m).runState = s.runState := rfl
@[simp] theorem State.setMem_faultCause (s : State) (m : Memory) : (s.setMem m).faultCause = s.faultCause := rfl
@[simp] theorem State.setMem_faultInfo (s : State) (m : Memory) : (s.setMem m).faultInfo = s.faultInfo := rfl

@[simp] theorem State.setRunState_V (s : State) (r : RunState) : (s.setRunState r).V = s.V := rfl
@[simp] theorem State.setRunState_pc (s : State) (r : RunState) : (s.setRunState r).pc = s.pc := rfl
@[simp] theorem State.setRunState_stack (s : State) (r : RunState) : (s.setRunState r).stack = s.stack := rfl
@[simp] theorem State.setRunState_sp (s : State) (r : RunState) : (s.setRunState r).sp = s.sp := rfl
@[simp] theorem State.setRunState_mem (s : State) (r : RunState) : (s.setRunState r).mem = s.mem := rfl
@[simp] theorem State.setRunState_runState (s : State) (r : RunState) : (s.setRunState r).runState = r := rfl
@[simp] theorem State.setRunState_faultCause (s : State) (r : RunState) : (s.setRunState r).faultCause = s.faultCause := rfl
@[simp] theorem State.setRunState_faultInfo (s : State) (r : RunState) : (s.setRunState r).faultInfo = s.faultInfo := rfl

@[simp] theorem State.setFaultCause_V (s : State) (c : BitVec 3) : (s.setFaultCause c).V = s.V := rfl
@[simp] theorem State.setFaultCause_pc (s : State) (c : BitVec 3) : (s.setFaultCause c).pc = s.pc := rfl
@[simp] theorem State.setFaultCause_stack (s : State) (c : BitVec 3) : (s.setFaultCause c).stack = s.stack := rfl
@[simp] theorem State.setFaultCause_sp (s : State) (c : BitVec 3) : (s.setFaultCause c).sp = s.sp := rfl
@[simp] theorem State.setFaultCause_mem (s : State) (c : BitVec 3) : (s.setFaultCause c).mem = s.mem := rfl
@[simp] theorem State.setFaultCause_runState (s : State) (c : BitVec 3) : (s.setFaultCause c).runState = s.runState := rfl
@[simp] theorem State.setFaultCause_faultCause (s : State) (c : BitVec 3) : (s.setFaultCause c).faultCause = c := rfl
@[simp] theorem State.setFaultCause_faultInfo (s : State) (c : BitVec 3) : (s.setFaultCause c).faultInfo = s.faultInfo := rfl

@[simp] theorem State.setFaultInfo_V (s : State) (w : Word) : (s.setFaultInfo w).V = s.V := rfl
@[simp] theorem State.setFaultInfo_pc (s : State) (w : Word) : (s.setFaultInfo w).pc = s.pc := rfl
@[simp] theorem State.setFaultInfo_stack (s : State) (w : Word) : (s.setFaultInfo w).stack = s.stack := rfl
@[simp] theorem State.setFaultInfo_sp (s : State) (w : Word) : (s.setFaultInfo w).sp = s.sp := rfl
@[simp] theorem State.setFaultInfo_mem (s : State) (w : Word) : (s.setFaultInfo w).mem = s.mem := rfl
@[simp] theorem State.setFaultInfo_runState (s : State) (w : Word) : (s.setFaultInfo w).runState = s.runState := rfl
@[simp] theorem State.setFaultInfo_faultCause (s : State) (w : Word) : (s.setFaultInfo w).faultCause = s.faultCause := rfl
@[simp] theorem State.setFaultInfo_faultInfo (s : State) (w : Word) : (s.setFaultInfo w).faultInfo = w := rfl

/-! ### The named operations -/

@[simp] theorem State.halt_V (s : State) : s.halt.V = s.V := rfl
@[simp] theorem State.halt_pc (s : State) : s.halt.pc = s.pc := rfl
@[simp] theorem State.halt_stack (s : State) : s.halt.stack = s.stack := rfl
@[simp] theorem State.halt_sp (s : State) : s.halt.sp = s.sp := rfl
@[simp] theorem State.halt_mem (s : State) : s.halt.mem = s.mem := rfl
@[simp] theorem State.halt_runState (s : State) : s.halt.runState = .halted := rfl
@[simp] theorem State.halt_faultCause (s : State) : s.halt.faultCause = s.faultCause := rfl
@[simp] theorem State.halt_faultInfo (s : State) : s.halt.faultInfo = s.faultInfo := rfl

@[simp] theorem State.raise_V (s : State) (f : Fault) : (s.raise f).V = s.V := rfl
@[simp] theorem State.raise_pc (s : State) (f : Fault) : (s.raise f).pc = s.pc := rfl
@[simp] theorem State.raise_stack (s : State) (f : Fault) : (s.raise f).stack = s.stack := rfl
@[simp] theorem State.raise_sp (s : State) (f : Fault) : (s.raise f).sp = s.sp := rfl
@[simp] theorem State.raise_mem (s : State) (f : Fault) : (s.raise f).mem = s.mem := rfl
@[simp] theorem State.raise_runState (s : State) (f : Fault) : (s.raise f).runState = .faulted := rfl
@[simp] theorem State.raise_faultCause (s : State) (f : Fault) : (s.raise f).faultCause = f.code := rfl
@[simp] theorem State.raise_faultInfo (s : State) (f : Fault) : (s.raise f).faultInfo = f.info := rfl

@[simp] theorem State.advance_V (s : State) : s.advance.V = s.V := rfl
@[simp] theorem State.advance_pc (s : State) : s.advance.pc = s.pc + 2#16 := rfl
@[simp] theorem State.advance_stack (s : State) : s.advance.stack = s.stack := rfl
@[simp] theorem State.advance_sp (s : State) : s.advance.sp = s.sp := rfl
@[simp] theorem State.advance_mem (s : State) : s.advance.mem = s.mem := rfl
@[simp] theorem State.advance_runState (s : State) : s.advance.runState = s.runState := rfl
@[simp] theorem State.advance_faultCause (s : State) : s.advance.faultCause = s.faultCause := rfl
@[simp] theorem State.advance_faultInfo (s : State) : s.advance.faultInfo = s.faultInfo := rfl

@[simp] theorem State.writeV_pc (s : State) (i : RegIdx) (v : Byte) : (s.writeV i v).pc = s.pc := rfl
@[simp] theorem State.writeV_stack (s : State) (i : RegIdx) (v : Byte) : (s.writeV i v).stack = s.stack := rfl
@[simp] theorem State.writeV_sp (s : State) (i : RegIdx) (v : Byte) : (s.writeV i v).sp = s.sp := rfl
@[simp] theorem State.writeV_mem (s : State) (i : RegIdx) (v : Byte) : (s.writeV i v).mem = s.mem := rfl
@[simp] theorem State.writeV_runState (s : State) (i : RegIdx) (v : Byte) : (s.writeV i v).runState = s.runState := rfl
@[simp] theorem State.writeV_faultCause (s : State) (i : RegIdx) (v : Byte) : (s.writeV i v).faultCause = s.faultCause := rfl
@[simp] theorem State.writeV_faultInfo (s : State) (i : RegIdx) (v : Byte) : (s.writeV i v).faultInfo = s.faultInfo := rfl

/-! ### Reading through the updates -/

@[simp] theorem State.slot_setV (s : State) (v : Vector Byte 16) (i : Fin 16) : (s.setV v).slot i = s.slot i := rfl
@[simp] theorem State.readV_setPc (s : State) (w : Word) (i : RegIdx) : (s.setPc w).readV i = s.readV i := rfl
@[simp] theorem State.slot_setPc (s : State) (w : Word) (i : Fin 16) : (s.setPc w).slot i = s.slot i := rfl
@[simp] theorem State.readV_setStack (s : State) (v : Vector Word 16) (i : RegIdx) : (s.setStack v).readV i = s.readV i := rfl
@[simp] theorem State.readV_setSp (s : State) (n : Fin 17) (i : RegIdx) : (s.setSp n).readV i = s.readV i := rfl
@[simp] theorem State.slot_setSp (s : State) (n : Fin 17) (i : Fin 16) : (s.setSp n).slot i = s.slot i := rfl
@[simp] theorem State.readV_setMem (s : State) (m : Memory) (i : RegIdx) : (s.setMem m).readV i = s.readV i := rfl
@[simp] theorem State.slot_setMem (s : State) (m : Memory) (i : Fin 16) : (s.setMem m).slot i = s.slot i := rfl
@[simp] theorem State.readV_setRunState (s : State) (r : RunState) (i : RegIdx) : (s.setRunState r).readV i = s.readV i := rfl
@[simp] theorem State.slot_setRunState (s : State) (r : RunState) (i : Fin 16) : (s.setRunState r).slot i = s.slot i := rfl
@[simp] theorem State.readV_setFaultCause (s : State) (c : BitVec 3) (i : RegIdx) : (s.setFaultCause c).readV i = s.readV i := rfl
@[simp] theorem State.slot_setFaultCause (s : State) (c : BitVec 3) (i : Fin 16) : (s.setFaultCause c).slot i = s.slot i := rfl
@[simp] theorem State.readV_setFaultInfo (s : State) (w : Word) (i : RegIdx) : (s.setFaultInfo w).readV i = s.readV i := rfl
@[simp] theorem State.slot_setFaultInfo (s : State) (w : Word) (i : Fin 16) : (s.setFaultInfo w).slot i = s.slot i := rfl

@[simp] theorem State.readV_halt (s : State) (i : RegIdx) : s.halt.readV i = s.readV i := rfl
@[simp] theorem State.readV_raise (s : State) (f : Fault) (i : RegIdx) : (s.raise f).readV i = s.readV i := rfl
@[simp] theorem State.readV_advance (s : State) (i : RegIdx) : s.advance.readV i = s.readV i := rfl
@[simp] theorem State.slot_halt (s : State) (i : Fin 16) : s.halt.slot i = s.slot i := rfl
@[simp] theorem State.slot_raise (s : State) (f : Fault) (i : Fin 16) : (s.raise f).slot i = s.slot i := rfl
@[simp] theorem State.slot_advance (s : State) (i : Fin 16) : s.advance.slot i = s.slot i := rfl
@[simp] theorem State.slot_writeV (s : State) (j : RegIdx) (v : Byte) (i : Fin 16) :
    (s.writeV j v).slot i = s.slot i := rfl

/-- A register after a register write: the written one holds the value, every other one is as it was. -/
theorem State.readV_writeV (s : State) (i j : RegIdx) (v : Byte) :
    (s.writeV i v).readV j = if i = j then v else s.readV j := by
  simp only [State.readV, State.writeV, State.setV_V, Vector.getElem_set, Fin.ext_iff]

@[simp] theorem State.readV_writeV_same (s : State) (i : RegIdx) (v : Byte) : (s.writeV i v).readV i = v := by
  simp [State.readV_writeV]

theorem State.readV_writeV_other (s : State) {i j : RegIdx} (v : Byte) (h : i ≠ j) :
    (s.writeV i v).readV j = s.readV j := by
  simp [State.readV_writeV, h]

/-- Two states with the same fields are one state. -/
theorem State.eq_of_fields {s t : State} (hV : s.V = t.V) (hpc : s.pc = t.pc) (hst : s.stack = t.stack)
    (hsp : s.sp = t.sp) (hm : s.mem = t.mem) (hr : s.runState = t.runState) (hc : s.faultCause = t.faultCause)
    (hi : s.faultInfo = t.faultInfo) : s = t := by
  cases s
  cases t
  simp_all

end Sys2Proof.Machine
end

