-- ==== Sys2Proof/Laws/Memory.lean ====
section
/-! SUPPORT. The laws of memory: what a read gives after a write, and that every operation keeps the canonical form. -/

namespace Sys2Proof.Machine

@[simp] theorem Memory.read_nil (a : Nat) : Memory.read [] a = 0#8 := rfl

theorem Memory.wf_nil : Memory.wf [] := ⟨.nil, by simp⟩

theorem Memory.wf_tail {c : Host.Cell} {m : Memory} (h : Memory.wf (c :: m)) : m.wf :=
  ⟨(List.pairwise_cons.1 h.1).2, fun d hd => h.2 d (List.mem_cons_of_mem c hd)⟩

/-- An address below every listed one reads as the reset value. -/
theorem Memory.read_of_lt {m : Memory} {a : Nat} (h : ∀ c ∈ m, a < c.1) : m.read a = 0#8 := by
  induction m with
  | nil => rfl
  | cons c m ih =>
    have hc : a ≠ c.1 := Nat.ne_of_lt (h c List.mem_cons_self)
    simp [Memory.read, hc, ih fun d hd => h d (List.mem_cons_of_mem c hd)]

/-- A read after a write to the same address gives the value written. -/
theorem Memory.read_write_same {m : Memory} (hm : m.wf) (a : Nat) (v : Byte) : (m.write a v).read a = v := by
  induction m with
  | nil =>
    by_cases hv : v = 0#8 <;> simp [Memory.write, Memory.read, hv]
  | cons c m ih =>
    have hgt : ∀ d ∈ m, c.1 < d.1 := (List.pairwise_cons.1 hm.1).1
    by_cases hlt : a < c.1
    · by_cases hv : v = 0#8
      · have h0 : Memory.read (c :: m) a = 0#8 := Memory.read_of_lt fun d hd => by
          rcases List.mem_cons.1 hd with rfl | hd
          · exact hlt
          · exact Nat.lt_trans hlt (hgt d hd)
        simpa [Memory.write, hlt, hv] using h0
      · simp [Memory.write, Memory.read, hlt, hv]
    · by_cases heq : a = c.1
      · by_cases hv : v = 0#8
        · have h0 : Memory.read m c.1 = 0#8 := Memory.read_of_lt hgt
          simp [Memory.write, heq, hv, h0]
        · simp [Memory.write, Memory.read, heq, hv]
      · simpa [Memory.write, Memory.read, hlt, heq] using ih (Memory.wf_tail hm)

/-- A write leaves every other address alone. -/
theorem Memory.read_write_other (m : Memory) {a b : Nat} (v : Byte) (h : b ≠ a) :
    (m.write a v).read b = m.read b := by
  induction m with
  | nil =>
    by_cases hv : v = 0#8 <;> simp [Memory.write, Memory.read, hv, h]
  | cons c m ih =>
    by_cases hlt : a < c.1
    · by_cases hv : v = 0#8 <;> simp [Memory.write, Memory.read, hlt, hv, h]
    · by_cases heq : a = c.1
      · subst heq
        by_cases hv : v = 0#8 <;> simp [Memory.write, Memory.read, hv, h]
      · simp [Memory.write, Memory.read, hlt, heq, ih]

/-- Every entry of a written memory is an old one or the one written. -/
theorem Memory.mem_write {m : Memory} {a : Nat} {v : Byte} {c : Host.Cell} (h : c ∈ m.write a v) :
    c ∈ m ∨ (c = (a, v) ∧ v ≠ 0#8) := by
  induction m with
  | nil =>
    by_cases hv : v = 0#8
    · simp [Memory.write, hv] at h
    · simp only [Memory.write, hv, if_false, List.mem_singleton] at h
      exact .inr ⟨h, hv⟩
  | cons d m ih =>
    by_cases hlt : a < d.1
    · by_cases hv : v = 0#8
      · simp only [Memory.write, hlt, hv, if_true] at h
        exact .inl h
      · simp only [Memory.write, hlt, hv, if_true, if_false] at h
        exact (List.mem_cons.1 h).elim (fun e => .inr ⟨e, hv⟩) .inl
    · by_cases heq : a = d.1
      · by_cases hv : v = 0#8
        · simp only [Memory.write, heq, hv, if_true, if_false, Nat.lt_irrefl] at h
          exact .inl (List.mem_cons_of_mem d h)
        · simp only [Memory.write, heq, hv, if_true, if_false, Nat.lt_irrefl] at h
          rcases List.mem_cons.1 h with e | e
          · exact .inr ⟨heq ▸ e, hv⟩
          · exact .inl (List.mem_cons_of_mem d e)
      · simp only [Memory.write, hlt, heq, if_false] at h
        rcases List.mem_cons.1 h with e | e
        · exact .inl (e ▸ List.mem_cons_self)
        · exact (ih e).imp_left (List.mem_cons_of_mem d)

/-- A write to an address that exists keeps the canonical form. -/
theorem Memory.write_wf {m : Memory} (hm : m.wf) {a : Nat} (ha : a < 0x1000) (v : Byte) : (m.write a v).wf := by
  refine ⟨?_, fun c hc => ?_⟩
  · induction m with
    | nil => by_cases hv : v = 0#8 <;> simp [Memory.write, hv]
    | cons d m ih =>
      obtain ⟨hgt, hpw⟩ := List.pairwise_cons.1 hm.1
      by_cases hlt : a < d.1
      · by_cases hv : v = 0#8
        · simpa [Memory.write, hlt, hv] using hm.1
        · simp only [Memory.write, hlt, hv, if_true, if_false]
          refine List.pairwise_cons.2 ⟨fun c hc => ?_, hm.1⟩
          rcases List.mem_cons.1 hc with rfl | hc
          · exact hlt
          · exact Nat.lt_trans hlt (hgt c hc)
      · by_cases heq : a = d.1
        · by_cases hv : v = 0#8
          · simpa [Memory.write, heq, hv] using hpw
          · simp only [Memory.write, heq, hv, if_true, if_false, Nat.lt_irrefl]
            exact List.pairwise_cons.2 ⟨hgt, hpw⟩
        · simp only [Memory.write, hlt, heq, if_false]
          refine List.pairwise_cons.2 ⟨fun c hc => ?_, ih (Memory.wf_tail hm)⟩
          rcases Memory.mem_write hc with hc | ⟨rfl, -⟩
          · exact hgt c hc
          · show d.1 < a
            omega
  · rcases Memory.mem_write hc with hc | ⟨rfl, hv⟩
    · exact hm.2 c hc
    · exact ⟨ha, hv⟩

/-- A word write whose two addresses exist keeps the canonical form. -/
theorem Memory.writeWord_wf {m : Memory} (hm : m.wf) {a : Nat} (ha : a + 1 < 0x1000) (w : Word) :
    (m.writeWord a w).wf :=
  Memory.write_wf (Memory.write_wf hm (by omega) _) ha _

/-- A word read after a word write to the same address gives the word written. -/
theorem Memory.readWord_writeWord {m : Memory} (hm : m.wf) {a : Nat} (ha : a + 1 < 0x1000) (w : Word) :
    (m.writeWord a w).readWord a = w := by
  have h0 : (m.writeWord a w).read a = highByte w := by
    rw [Memory.writeWord, Memory.read_write_other _ _ (by omega), Memory.read_write_same hm]
  have h1 : (m.writeWord a w).read (a + 1) = lowByte w :=
    Memory.read_write_same (Memory.write_wf hm (by omega) _) _ _
  rw [Memory.readWord, h0, h1, joinBytes_high_low]

end Sys2Proof.Machine
end

