-- ==== Sys2Proof/Laws/Ops.lean ====
section
/-! SUPPORT. One lemma for each shared operation and each meaning, saying once everything it can do. -/

namespace Sys2Proof.Machine

/-! ### The call stack -/

/-- The state a push gives where there is room. -/
theorem State.push_of_lt {s : State} (w : Word) (h : s.sp.val < 16) :
    s.push w = some ((s.setStack (s.stack.set s.sp.val w)).setSp ⟨s.sp.val + 1, by omega⟩) := by
  simp [State.push, h]

theorem State.push_eq_none {s : State} {w : Word} : s.push w = none ↔ s.sp.val = 16 := by
  unfold State.push
  split <;> simp <;> omega

/-- Everything a push can do. -/
theorem State.push_cases (s : State) (w : Word) :
    (s.sp.val = 16 ∧ s.push w = none) ∨
    ∃ h : s.sp.val < 16,
      s.push w = some ((s.setStack (s.stack.set s.sp.val w)).setSp ⟨s.sp.val + 1, by omega⟩) := by
  by_cases h : s.sp.val < 16
  · exact .inr ⟨h, State.push_of_lt w h⟩
  · have h16 : s.sp.val = 16 := by omega
    exact .inl ⟨h16, State.push_eq_none.2 h16⟩

/-- The state a pop gives where there is an entry. -/
theorem State.pop_of_pos {s : State} (h : 0 < s.sp.val) :
    s.pop = some (s.slot ⟨s.sp.val - 1, by omega⟩, s.setSp ⟨s.sp.val - 1, by omega⟩) := by
  simp [State.pop, State.slot, h]

theorem State.pop_eq_none {s : State} : s.pop = none ↔ s.sp.val = 0 := by
  unfold State.pop
  split <;> simp <;> omega

/-- Everything a pop can do. -/
theorem State.pop_cases (s : State) :
    (s.sp.val = 0 ∧ s.pop = none) ∨
    ∃ _ : 0 < s.sp.val,
      s.pop = some (s.slot ⟨s.sp.val - 1, by omega⟩, s.setSp ⟨s.sp.val - 1, by omega⟩) := by
  by_cases h : 0 < s.sp.val
  · exact .inr ⟨h, State.pop_of_pos h⟩
  · have h0 : s.sp.val = 0 := by omega
    exact .inl ⟨h0, State.pop_eq_none.2 h0⟩

/-! ### Operands and flags -/

@[simp] theorem addrOperand_toNat (nnn : Addr) : (addrOperand nnn).toNat = nnn.toNat := by
  have := nnn.isLt
  simp only [addrOperand, BitVec.toNat_setWidth]
  omega

@[simp] theorem regOperand_eq (s : State) (i : RegIdx) : regOperand s i = s.readV i := rfl

@[simp] theorem sumResult_toNat (a b : Byte) : (sumResult a b).toNat = (a.toNat + b.toNat) % 256 := by
  simp [sumResult, exactSum]

@[simp] theorem carryOut_toNat (a b : Byte) :
    (carryOut a b).toNat = if a.toNat + b.toNat > 255 then 1 else 0 := by
  unfold carryOut exactSum
  split <;> rfl

/-! ### Fetch and advance -/

/-- Everything a fetch can answer. -/
theorem State.fetch_cases (s : State) :
    (0xFFF ≤ s.pc.toNat ∧ s.fetch = none) ∨
    (s.pc.toNat ≤ 0xFFE ∧ s.fetch = some (s.mem.readWord s.pc.toNat)) := by
  by_cases h : 0xFFF ≤ s.pc.toNat
  · exact .inl ⟨h, if_pos (Nat.succ_le_succ h)⟩
  · exact .inr ⟨by omega, if_neg (show ¬ s.pc.toNat + 1 > 0xFFF by omega)⟩

/-- The advance after a fetch that succeeded does not wrap (rule R83). -/
theorem State.advance_pc_toNat {s : State} (h : s.pc.toNat ≤ 0xFFE) : s.advance.pc.toNat = s.pc.toNat + 2 := by
  rw [State.advance_pc, BitVec.toNat_add]
  exact Nat.mod_eq_of_lt (show s.pc.toNat + 2 < 65536 by omega)

/-! ### The meanings -/

/-- What HALT answers. -/
theorem exec_halt (s : State) : exec .halt s = .next s.halt := rfl

/-- What ADD answers. -/
theorem exec_add (x y : RegIdx) (s : State) :
    exec (.add x y) s =
      .next ((s.writeV x (sumResult (s.readV x) (s.readV y))).writeV 15 (carryOut (s.readV x) (s.readV y))) := rfl

/-- Everything CALL can answer. -/
theorem exec_call_cases (nnn : Addr) (s : State) :
    (s.sp.val = 16 ∧ exec (.call nnn) s = .next (s.raise .stackOverflow)) ∨
    ∃ h : s.sp.val < 16, exec (.call nnn) s =
      .next (((s.setStack (s.stack.set s.sp.val s.pc)).setSp ⟨s.sp.val + 1, by omega⟩).setPc (addrOperand nnn)) := by
  rcases s.push_cases s.pc with ⟨h, e⟩ | ⟨h, e⟩
  · exact .inl ⟨h, by simp only [exec, execCall, e]⟩
  · exact .inr ⟨h, by simp only [exec, execCall, e]⟩

/-- Everything RETURN can answer. -/
theorem exec_ret_cases (s : State) :
    (s.sp.val = 0 ∧ exec .ret s = .next (s.raise .stackUnderflow)) ∨
    ∃ _ : 0 < s.sp.val, exec .ret s =
      .next ((s.setSp ⟨s.sp.val - 1, by omega⟩).setPc (s.slot ⟨s.sp.val - 1, by omega⟩)) := by
  rcases s.pop_cases with ⟨h, e⟩ | ⟨h, e⟩
  · exact .inl ⟨h, by simp only [exec, execRet, e]⟩
  · exact .inr ⟨h, by simp only [exec, execRet, e]⟩

end Sys2Proof.Machine
end

