-- ==== Sys2Proof/Laws/PerInstr.lean ====
section
/-! SUPPORT. The families of facts about every instruction as syntax, one lemma for each constructor. -/

namespace Sys2Proof.Laws

/-- Every instruction is well-formed, and its written form gives it back (rules R68, R69). -/
def OperandsInRange.Statement (i : Instr) : Prop := i.wellFormed = true ∧ i.written.toInstr = some i

theorem OperandsInRange.halt : OperandsInRange.Statement .halt := ⟨rfl, rfl⟩

theorem OperandsInRange.ret : OperandsInRange.Statement .ret := ⟨rfl, rfl⟩

theorem OperandsInRange.call (nnn : Addr) : OperandsInRange.Statement (.call nnn) := by
  have h : nnn.toNat ≤ 0xFFF := Nat.le_of_lt_succ nnn.isLt
  constructor <;> simp [Instr.wellFormed, Instr.written, Written.wellFormed, Written.toInstr, h]

theorem OperandsInRange.add (x y : RegIdx) : OperandsInRange.Statement (.add x y) := by
  have hx : x.val ≤ 15 := Nat.le_of_lt_succ x.isLt
  have hy : y.val ≤ 15 := Nat.le_of_lt_succ y.isLt
  constructor <;> simp [Instr.wellFormed, Instr.written, Written.wellFormed, Written.toInstr, hx, hy]

/-- The encoding of every instruction stands in its own row of the opcode map (rule R63). -/
def EncodingInRow.Statement (i : Instr) : Prop := i.row.selects (encode i) = true ∧ i.row ∈ opcodeRows

theorem EncodingInRow.halt : EncodingInRow.Statement .halt := by unfold EncodingInRow.Statement; decide

theorem EncodingInRow.ret : EncodingInRow.Statement .ret := by unfold EncodingInRow.Statement; decide

theorem EncodingInRow.call (nnn : Addr) : EncodingInRow.Statement (.call nnn) := by
  refine ⟨(callRow_selects _).2 ?_, by simp [Instr.row, opcodeRows]⟩
  have := nnn.isLt
  rw [encode_call_toNat]
  omega

theorem EncodingInRow.add (x y : RegIdx) : EncodingInRow.Statement (.add x y) := by
  refine ⟨(addRow_selects _).2 ?_, by simp [Instr.row, opcodeRows]⟩
  have := x.isLt
  have := y.isLt
  rw [encode_add_toNat]
  omega

end Sys2Proof.Laws
end

