-- ==== Sys2Proof/Laws/Step.lean ====
section
/-! SUPPORT. What a step, a run and a host operation can do, each said once. -/

namespace Sys2Proof.Machine

/-- A core that is not running stays as it is. -/
theorem step_of_not_running {s : State} (h : s.runState ≠ .running) : step s = .next s := by
  unfold step cycle
  split <;> simp_all

/-- Everything a step of a running core can do: the fetch faults; or it succeeds, `pc` advances, and the word runs as
the instruction it decodes to or is raised as unimplemented. -/
theorem step_cases {s : State} (h : s.runState = .running) :
    (0xFFF ≤ s.pc.toNat ∧ step s = .next (s.raise .outOfBoundsFetch)) ∨
    (s.pc.toNat ≤ 0xFFE ∧
      ((∃ i, decode (s.mem.readWord s.pc.toNat) = .ok i ∧ step s = exec i s.advance) ∨
       (decode (s.mem.readWord s.pc.toNat) = .error (.unimplemented (s.mem.readWord s.pc.toNat)) ∧
        step s = .next (s.advance.raise (.unimplementedOpcode (s.mem.readWord s.pc.toNat)))))) := by
  have hs : step s = runningCycle s := by simp [step, cycle, h]
  rcases s.fetch_cases with ⟨hp, hf⟩ | ⟨hp, hf⟩
  · exact .inl ⟨hp, by simp only [hs, runningCycle, hf]⟩
  · refine .inr ⟨hp, ?_⟩
    rcases decode_cases (s.mem.readWord s.pc.toNat) with ⟨i, hd⟩ | hd
    · exact .inl ⟨i, hd, by simp only [hs, runningCycle, hf, dispatchWord, hd]⟩
    · exact .inr ⟨hd, by simp only [hs, runningCycle, hf, dispatchWord, hd]⟩

/-- The eight forms a step of a running core can take, each with its state written out. -/
theorem step_forms {s : State} (h : s.runState = .running) :
    (0xFFF ≤ s.pc.toNat ∧ step s = .next (s.raise .outOfBoundsFetch)) ∨
    (s.pc.toNat ≤ 0xFFE ∧
      ((decode (s.mem.readWord s.pc.toNat) = .error (.unimplemented (s.mem.readWord s.pc.toNat)) ∧
        step s = .next (s.advance.raise (.unimplementedOpcode (s.mem.readWord s.pc.toNat)))) ∨
       (decode (s.mem.readWord s.pc.toNat) = .ok .halt ∧ step s = .next s.advance.halt) ∨
       (∃ x y, decode (s.mem.readWord s.pc.toNat) = .ok (.add x y) ∧
        step s = .next ((s.advance.writeV x (sumResult (s.readV x) (s.readV y))).writeV 15
          (carryOut (s.readV x) (s.readV y)))) ∨
       (∃ nnn, decode (s.mem.readWord s.pc.toNat) = .ok (.call nnn) ∧
        ((s.sp.val = 16 ∧ step s = .next (s.advance.raise .stackOverflow)) ∨
         ∃ h : s.sp.val < 16, step s = .next
          (((s.advance.setStack (s.stack.set s.sp.val (s.pc + 2#16))).setSp ⟨s.sp.val + 1, by omega⟩).setPc
            (addrOperand nnn)))) ∨
       (decode (s.mem.readWord s.pc.toNat) = .ok .ret ∧
        ((s.sp.val = 0 ∧ step s = .next (s.advance.raise .stackUnderflow)) ∨
         ∃ _ : 0 < s.sp.val, step s = .next
          ((s.advance.setSp ⟨s.sp.val - 1, by omega⟩).setPc (s.slot ⟨s.sp.val - 1, by omega⟩)))))) := by
  rcases step_cases h with ⟨hp, e⟩ | ⟨hp, ⟨i, hd, e⟩ | ⟨hd, e⟩⟩
  · exact .inl ⟨hp, e⟩
  · refine .inr ⟨hp, .inr ?_⟩
    cases i with
    | halt => exact .inl ⟨hd, e⟩
    | add x y => exact .inr (.inl ⟨x, y, hd, e⟩)
    | call nnn => exact .inr (.inr (.inl ⟨nnn, hd, by rw [e]; exact exec_call_cases nnn s.advance⟩))
    | ret => exact .inr (.inr (.inr ⟨hd, by rw [e]; exact exec_ret_cases s.advance⟩))
  · exact .inr ⟨hp, .inl ⟨hd, e⟩⟩

/-- The next instruction is `i` exactly when a fetch succeeds and its word decodes to `i`. -/
theorem State.nextInstr_eq_some {s : State} {i : Instr} :
    s.nextInstr = some i ↔ s.pc.toNat ≤ 0xFFE ∧ decode (s.mem.readWord s.pc.toNat) = .ok i := by
  unfold State.nextInstr
  rcases s.fetch_cases with ⟨hp, e⟩ | ⟨hp, e⟩
  · simp only [e, reduceCtorEq, false_iff, not_and]
    omega
  · rcases decode_cases (s.mem.readWord s.pc.toNat) with ⟨j, hd⟩ | hd <;> simp [e, hd, hp]

/-- A run of no steps. -/
@[simp] theorem runFor_zero (s : State) : runFor 0 s = .next s := rfl

/-- A run's first step and the rest of it. -/
theorem runFor_succ {s t : State} (n : Nat) (h : step s = .next t) : runFor (n + 1) s = runFor n t := by
  have hc : Sys2Proof.core.step s = .next t := h
  simp only [runFor, Host.Core.run, hc]
  rfl

/-- Everything a host operation can do: it is outside its window and changes nothing, or it has its effect. -/
theorem hostStep_cases (op : HostOp) (s : State) :
    (op.allowed s.runState = false ∧ hostStep op s = (.turnedAway, s)) ∨
    (op.allowed s.runState = true ∧ hostStep op s = op.effect s) := by
  cases h : op.allowed s.runState
  · exact .inl ⟨rfl, by simp [hostStep, h]⟩
  · exact .inr ⟨rfl, by simp [hostStep, h]⟩

end Sys2Proof.Machine
end

