-- ==== Sys2Proof/Tests/Slice0.lean ====
section
/-! SUPPORT. The model's own tests, their expected results from 95_test_vectors.md, and for each statement with
hypotheses a concrete state that meets them. -/

namespace Sys2Proof.Tests

open Sys2Proof.Machine

/-! ### Well-formedness: an ill-formed term for each check, and the ends of the ranges -/

theorem test_call_target_too_large_is_refused :
    (Written.call 0x1000).wellFormed = false ∧ (Written.call 0x1000).toInstr = none := by decide

theorem test_add_first_register_too_large_is_refused :
    (Written.add 16 0).wellFormed = false ∧ (Written.add 16 0).toInstr = none := by decide

theorem test_add_second_register_too_large_is_refused :
    (Written.add 0 16).wellFormed = false ∧ (Written.add 0 16).toInstr = none := by decide

theorem test_last_operands_are_accepted :
    (Written.call 0xFFF).toInstr = some (.call 0xFFF#12) ∧ (Written.add 15 15).toInstr = some (.add 15 15) := by
  decide

/-! ### Decoding: words written out bit by bit from rule R63 (vectors E1 to E19), and the bytes in memory order -/

theorem test_decode_halt : decode 0b0000000000000000#16 = .ok .halt := by decide

theorem test_decode_return : decode 0b0000000011101110#16 = .ok .ret := by decide

theorem test_decode_call : decode 0b0010000100000000#16 = .ok (.call 0x100#12) := by decide

theorem test_decode_add : decode 0b1000101010110100#16 = .ok (.add 0xA 0xB) := by decide

theorem test_decode_neighbours_of_halt_and_return :
    decode 0x0001#16 = .error (.unimplemented 0x0001#16) ∧ decode 0x0100#16 = .error (.unimplemented 0x0100#16) ∧
    decode 0x01EE#16 = .error (.unimplemented 0x01EE#16) ∧ decode 0x00EF#16 = .error (.unimplemented 0x00EF#16) := by
  decide

theorem test_decode_neighbours_of_add :
    decode 0x8015#16 = .error (.unimplemented 0x8015#16) ∧ decode 0x8010#16 = .error (.unimplemented 0x8010#16) ∧
    decode 0x9014#16 = .error (.unimplemented 0x9014#16) := by decide

theorem test_decode_bytes_is_big_endian :
    decodeBytes [0x80#8, 0x14#8, 0x00#8] = .ok (.add 0 1, [0x00#8]) ∧
    decodeBytes [0x14#8, 0x80#8] = .error (.unimplemented 0x1480#16) ∧
    decodeBytes [0x80#8] = .error (.tooShort [0x80#8]) := by decide

theorem test_encode :
    encode .halt = 0x0000#16 ∧ encode .ret = 0x00EE#16 ∧ encode (.call 0xABC#12) = 0x2ABC#16 ∧
    encode (.add 0xA 0xB) = 0x8AB4#16 := by decide

theorem test_decode_table_word :
    decodeTableWord 16 0x2FFF = some (.call 0xFFF#12) ∧ decodeTableWord 16 0x8015 = none := by decide

/-! ### States to step from -/

/-- A running core with these bytes in memory, `pc` and `sp`. -/
def running (mem : Memory) (pc : Word) (sp : Fin 17) : State :=
  { State.reset with runState := .running, mem := mem, pc := pc, sp := sp }

/-- The same with a value in a slot. -/
def runningWithSlot (mem : Memory) (pc : Word) (sp : Fin 17) (i : Fin 16) (w : Word) : State :=
  { running mem pc sp with stack := State.reset.stack.set i.val w }

/-- The next state of a step has the property. -/
def after (s : State) (p : State → Bool) : Bool :=
  match step s with
  | .next t => p t
  | .fault _ => false
  | .refused _ => false

/-! ### The instructions (vectors A10, A12, K2, K3, H3, H4 and F13, F14) -/

/-- A12: `y` = 15 adds the old flag, then overwrites it. -/
theorem test_add_consumes_the_flag :
    after (((running [(0, 0x80#8), (1, 0xF4#8)] 0 0).writeV 0 250#8).writeV 15 10#8)
      (fun t => t.readV 0 == 4#8 && t.readV 15 == 1#8 && t.pc == 2#16) = true := by decide

/-- A10: `x` = 15 loses the sum and keeps the indicator. -/
theorem test_add_into_the_flag_register :
    after (((running [(0, 0x8F#8), (1, 0x14#8)] 0 0).writeV 15 3#8).writeV 1 7#8)
      (fun t => t.readV 15 == 0#8 && t.readV 1 == 7#8) = true := by decide

/-- K2: the last free slot. -/
theorem test_call_into_the_last_slot :
    after (running [(0x246, 0x2A#8), (0x247, 0xBC#8)] 0x246 15)
      (fun t => t.slot 15 == 0x248#16 && t.sp == 16 && t.pc == 0xABC#16 && t.runState == .running) = true := by decide

/-- F13: on a full stack nothing is pushed and `pc` is not the target. -/
theorem test_call_on_a_full_stack :
    after (runningWithSlot [(0x20, 0x23#8)] 0x20 16 15 0x777#16)
      (fun t => t.slot 15 == 0x777#16 && t.sp == 16 && t.pc == 0x22#16 && t.runState == .faulted &&
        t.faultCause == 2#3 && t.faultInfo == 0#16) = true := by decide

/-- K3: the popped slot keeps its value. -/
theorem test_return_keeps_the_slot :
    after (runningWithSlot [(0x105, 0xEE#8)] 0x104 1 0 0x0002#16)
      (fun t => t.pc == 2#16 && t.sp == 0 && t.slot 0 == 2#16) = true := by decide

/-- F14: RETURN on an empty stack. -/
theorem test_return_on_an_empty_stack :
    after (running [(1, 0xEE#8)] 0 0)
      (fun t => t.pc == 2#16 && t.sp == 0 && t.runState == .faulted && t.faultCause == 3#3) = true := by decide

/-- H3: an odd address and a stack that is not empty. -/
theorem test_halt_at_an_odd_address :
    after (running [] 0x123 5) (fun t => t.pc == 0x125#16 && t.sp == 5 && t.runState == .halted) = true := by decide

/-- H4: HALT in the last slot of memory is no fault. -/
theorem test_halt_in_the_last_slot :
    after (running [] 0xFFE 0)
      (fun t => t.pc == 0x1000#16 && t.runState == .halted && t.faultCause == 0#3) = true := by decide

/-! ### Fetch, faults, the host, memory -/

/-- F1: a fetch at 0xFFF faults, although the one byte that exists is 0. -/
theorem test_fetch_at_the_last_byte :
    after (running [] 0xFFF 0) (fun t => t.pc == 0xFFF#16 && t.runState == .faulted && t.faultCause == 1#3) = true := by
  decide

/-- F11: an unimplemented word at an odd address; the payload is the word. -/
theorem test_unimplemented_word :
    after (running [(3, 0x60#8), (4, 0x05#8)] 3 0)
      (fun t => t.pc == 5#16 && t.runState == .faulted && t.faultCause == 4#3 && t.faultInfo == 0x6005#16) = true := by
  decide

/-- P0: nothing loaded, Start, one step. -/
theorem test_nothing_loaded_halts :
    after (hostStep .start State.reset).2 (fun t => t.pc == 2#16 && t.runState == .halted) = true := by decide

/-- Z3 and Z4: the last byte is writable while IDLE; a write after the run is turned away. -/
theorem test_host_windows :
    (hostStep (.writeMem 0xFFF#12 0x12#8) State.reset).2.mem.read 0xFFF = 0x12#8 ∧
    hostStep (.writeReg 0 1#8) State.reset.halt = (.turnedAway, State.reset.halt) := by decide

/-- Writing the reset value takes the entry out again. -/
theorem test_memory_stays_canonical :
    (Memory.write (Memory.write [(1, 7#8)] 0 5#8) 0 0#8) = [(1, 7#8)] ∧
    (Memory.write [(1, 7#8)] 3 9#8).wf := by decide

/-- The placed word is the next one run, from reset and from a `pc` that no fetch can use. -/
theorem test_placed_word_runs :
    after (State.reset.withFetchWord 16 0x2ABC) (fun t => t.pc == 0xABC#16 && t.slot 0 == 2#16) = true ∧
    after ((running [] 0xFFF 0).withFetchWord 16 0x2ABC) (fun t => t.pc == 0xABC#16) = true := by decide

/-! ### Witnesses: states and operands that meet the hypotheses of the statements -/

theorem witness_EncodeOfDecodeGivesTheWord : decode 0x8AB4#16 = .ok (.add 0xA 0xB) := by decide

theorem witness_FieldsAreShiftsAndMasks : Memory.readWord [(0x100, 0x80#8), (0x101, 0x14#8)] 0x100 = 0x8014#16 := by
  decide

theorem witness_NoWordSelectsTwoRows :
    callRow ∈ opcodeRows ∧ callRow.selects 0x2FFF#16 = true := by decide

theorem witness_HaltAndReturnMatchTheWholeWord : fieldC 0x01EE#16 = 0x0#4 := by decide

theorem witness_ImplementedWordsByClass : ¬ ∃ i, decode 0x00E0#16 = .ok i := by
  rintro ⟨i, h⟩
  have e : decode 0x00E0#16 = .error (.unimplemented 0x00E0#16) := by decide
  rw [e] at h
  cases h

theorem witness_NoSilentNoOps :
    (∃ s t : State, s.runState = .running ∧ step s = .next t) ∧ State.reset.readV 1 = 0#8 :=
  ⟨⟨running [] 0 0, _, rfl, rfl⟩, by decide⟩

theorem witness_FetchIsBigEndian :
    (running [] 0xFFE 0).pc.toNat + 1 ≤ 0xFFF ∧ (running [] 0x101 0).pc.toNat + 1 ≤ 0xFFF := by decide

theorem witness_FetchIsLegalUpToTheLastFullSlot :
    ((running [] 0xFFE 0).runState = .running ∧ (running [] 0xFFE 0).pc.toNat + 1 ≤ 0xFFF) ∧
    ((running [] 0xFFF 0).runState = .running ∧ 0xFFF < (running [] 0xFFF 0).pc.toNat + 1) ∧
    ((running [] 0xFFFF 0).runState = .running ∧ 0xFFF < (running [] 0xFFFF 0).pc.toNat + 1) := by decide

theorem witness_AdvanceByTwoBeforeDispatch :
    ((running [] 0xFFE 0).runState = .running ∧ (running [] 0xFFE 0).fetch = some 0#16) ∧
    ((running [] 0xFFF 0).runState = .running ∧ (running [] 0xFFF 0).fetch = none) := by decide

theorem witness_StepRunsTheDecodedInstruction :
    let s := running [(0xFFE, 0x80#8), (0xFFF, 0x14#8)] 0xFFE 0
    s.runState = .running ∧ s.pc.toNat + 1 ≤ 0xFFF ∧
    decodeBytes [s.mem.read s.pc.toNat, s.mem.read (s.pc.toNat + 1)] = .ok (.add 0 1, []) := by decide

theorem witness_NotRunningCoreStaysAndNoCoreIsStuck : State.reset.runState ≠ .running := by decide

theorem witness_StepIsTheFunctionOfTheSpec : (running [(0, 0x21#8)] 0 0).runState = .running := by decide

/-- One state for each row of the table, at the ends of `pc` and `sp`. -/
theorem witness_EveryWayAStepEnds :
    ((running [] 0xFFF 0).runState = .running ∧ (running [] 0xFFF 0).pc.toNat ≥ 0xFFF) ∧
    (decode (Memory.readWord [(0xFFE, 0x80#8), (0xFFF, 0x14#8)] 0xFFE) = .ok (.add 0 1) ∧
      (running [(0xFFE, 0x80#8), (0xFFF, 0x14#8)] 0xFFE 0).pc.toNat < 0xFFF) ∧
    (decode (Memory.readWord [(0, 0x2F#8), (1, 0xFF#8)] 0) = .ok (.call 0xFFF#12) ∧
      (running [(0, 0x2F#8), (1, 0xFF#8)] 0 15).sp.val < 16 ∧ (running [(0, 0x2F#8), (1, 0xFF#8)] 0 16).sp.val = 16) ∧
    (decode (Memory.readWord [(1, 0xEE#8)] 0) = .ok .ret ∧
      (15 : Fin 16).val + 1 = (running [(1, 0xEE#8)] 0 16).sp.val ∧ (running [(1, 0xEE#8)] 0 0).sp.val = 0) ∧
    decode (Memory.readWord [] 0) = .ok .halt ∧
    decode (Memory.readWord [(1, 0x01#8)] 0) = .error (.unimplemented 0x0001#16) := by decide

theorem witness_HaltEndsTheRunAndChangesNothingElse :
    let s := running [] 0xFFE 3
    s.runState = .running ∧ s.pc.toNat ≤ 0xFFE ∧ s.mem.read s.pc.toNat = 0x00#8 ∧
    s.mem.read (s.pc.toNat + 1) = 0x00#8 := by decide

theorem witness_CallPushesAndGoesToItsTarget :
    (running [] 0 0).sp.val < 16 ∧ (running [] 0 15).sp.val < 16 ∧ (running [] 0 16).sp.val = 16 := by decide

theorem witness_ReturnPopsIntoThePc :
    (running [] 0 1).sp.val = (0 : Fin 16).val + 1 ∧ (running [] 0 16).sp.val = (15 : Fin 16).val + 1 ∧
    (running [] 0 0).sp.val = 0 := by decide

theorem witness_AddWritesTheSumAndTheCarry :
    (14 : RegIdx) ≠ 15 ∧ (3 : RegIdx) ≠ 14 ∧ (3 : RegIdx) ≠ 15 := by decide

theorem witness_AdditionLawForAllOperands :
    let s := ((running [] 0 0).writeV 0 255#8).writeV 1 1#8
    s.readV 0 = 255#8 ∧ s.readV 1 = 1#8 ∧ (0 : RegIdx) ≠ 15 := by decide

/-- The same operands with `x` = 15. -/
theorem witness_AdditionLawForAllOperands_flag :
    let s := ((running [] 0 0).writeV 15 255#8).writeV 1 1#8
    s.readV 15 = 255#8 ∧ s.readV 1 = 1#8 := by decide

/-- One choice of `x` and `y` for each of the five rows, at the ends of their ranges. -/
theorem witness_AddWithAliasedOperands :
    ((0 : RegIdx) ≠ 14 ∧ (0 : RegIdx) ≠ 15 ∧ (14 : RegIdx) ≠ 15) ∧ (∃ x y : RegIdx, x = y ∧ x ≠ 15) ∧
    (∃ x y : RegIdx, x ≠ 15 ∧ y = 15) ∧ (∃ x y : RegIdx, x = 15 ∧ y ≠ 15) ∧ ∃ x y : RegIdx, x = 15 ∧ y = 15 :=
  ⟨by decide, ⟨14, 14, by decide⟩, ⟨14, 15, by decide⟩, ⟨15, 14, by decide⟩, ⟨15, 15, by decide⟩⟩

theorem witness_AddHasNoCarryIn : (14 : RegIdx) ≠ 15 ∧ (0 : RegIdx) ≠ 15 := by decide

theorem witness_CallThenReturnComesBack :
    let s := running [(0x300, 0x2F#8), (0x301, 0xFE#8), (0xFFF, 0xEE#8)] 0x300 15
    s.runState = .running ∧ s.sp.val = (15 : Fin 16).val ∧ s.nextInstr = some (.call 0xFFE#12) ∧
    (0xFFE#12).toNat ≤ 0xFFE ∧ s.mem.readWord (0xFFE#12).toNat = 0x00EE#16 := by decide

/-- The history of `CALL 0x000` at address 0 (P4). -/
def callHistory : Nat → State
  | 0 => running [(0, 0x20#8)] 0 0
  | k + 1 =>
    match step (callHistory k) with
    | .next t => t
    | .fault _ => callHistory k
    | .refused _ => callHistory k

/-- Sixteen calls deep, every clause of the first part: `n` = 16 for the overflow, `n` = 15 for the last call that
succeeds. -/
theorem witness_SixteenNestedCallsAndNoMore :
    (callHistory 0).sp.val = 0 ∧
    (∀ k < 16, step (callHistory k) = .next (callHistory (k + 1)) ∧ (callHistory k).nextInstr ≠ some .ret) ∧
    (∀ k ≤ 16, (callHistory k).runState = .running) ∧
    ((callHistory 16).atCall = true ∧ callsIn callHistory 16 = 16) ∧
    ((callHistory 15).atCall = true ∧ callsIn callHistory 15 < 16) := by
  refine ⟨rfl, fun k hk => ?_, by decide, by decide, by decide⟩
  refine ⟨?_, by revert k; decide⟩
  interval_cases k <;> rfl

theorem witness_SixteenNestedCallsAndNoMore_return :
    let s := running [(1, 0xEE#8)] 0 0
    s.runState = .running ∧ s.nextInstr = some .ret ∧ s.sp.val = 0 := by decide

theorem witness_TargetsAreCheckedOnlyByTheNextFetch :
    (let s := running [(0, 0x2F#8), (1, 0xFF#8)] 0 15
     s.runState = .running ∧ s.nextInstr = some (.call 0xFFF#12) ∧ s.sp.val < 16) ∧
    (let s := runningWithSlot [(0x11, 0xEE#8)] 0x10 16 15 0xFFF#16
     s.runState = .running ∧ s.nextInstr = some .ret ∧ s.sp.val = (15 : Fin 16).val + 1 ∧
     0xFFF ≤ (s.slot 15).toNat) := by decide

theorem witness_FaultsArePrecise :
    (∃ t, step (running [] 0xFFF 0) = .next t ∧ t.runState = .faulted) ∧
    ∃ t, step (running [(0, 0x12#8)] 0 0) = .next t ∧ t.runState = .faulted :=
  ⟨⟨_, rfl, rfl⟩, ⟨_, rfl, rfl⟩⟩

/-- One running state for each of the four conditions. -/
theorem witness_EachFaultExactlyUnderItsCondition :
    ((running [] 0xFFF 0).runState = .running ∧ 0xFFF < (running [] 0xFFF 0).pc.toNat + 1) ∧
    ((running [(0, 0x23#8)] 0 16).runState = .running ∧
      decode ((running [(0, 0x23#8)] 0 16).mem.readWord 0) = .ok (.call 0x300#12)) ∧
    ((running [(1, 0xEE#8)] 0 0).runState = .running ∧ decode ((running [(1, 0xEE#8)] 0 0).mem.readWord 0) = .ok .ret) ∧
    ((running [(1, 0x01#8)] 0 0).runState = .running ∧
      decode ((running [(1, 0x01#8)] 0 0).mem.readWord 0) = .error (.unimplemented 0x0001#16)) := by decide

/-- A step that changes registers, one that changes a slot and `sp`, one that records a fault. -/
theorem witness_StepTouchesOnlyWhatItMay :
    (∃ t, step ((running [(0, 0x80#8), (1, 0x14#8)] 0 0).writeV 1 9#8) = .next t ∧ t.readV 0 ≠ 0#8) ∧
    (∃ t, step (running [(0, 0x21#8)] 0 0) = .next t ∧ t.slot 0 ≠ 0#16 ∧ t.sp ≠ 0) ∧
    ∃ t, step (running [(1, 0x01#8)] 0 0) = .next t ∧ t.faultCause ≠ 0#3 :=
  ⟨⟨_, rfl, by decide⟩, ⟨_, rfl, by decide, by decide⟩, ⟨_, rfl, by decide⟩⟩

theorem witness_MemoryIsConstantDuringARun :
    ∃ t, runFor 2 (running [(0, 0x21#8), (0x100, 0x80#8), (0x101, 0x14#8)] 0 0) = .next t := ⟨_, rfl⟩

theorem witness_StepReadsOnlyTheTwoBytesAtPc :
    let s := running [(0, 0x21#8)] 0 0
    let t := running [(0, 0x21#8), (2, 0x99#8)] 0 0
    s.sameButMem t ∧ t.mem.read s.pc.toNat = s.mem.read s.pc.toNat ∧
    t.mem.read (s.pc.toNat + 1) = s.mem.read (s.pc.toNat + 1) ∧ ∃ s', step s = .next s' :=
  ⟨rfl, rfl, rfl, _, rfl⟩

theorem witness_ControlFlowNeverDependsOnRegisters :
    let s := running [(0, 0x80#8), (1, 0x14#8)] 0 0
    s.sameButV (s.writeV 1 9#8) ∧ ∃ s', runFor 2 s = .next s' :=
  ⟨rfl, _, rfl⟩

theorem witness_FreeSlotsAreInvisibleToPrograms :
    let s := running [(0, 0x21#8)] 0 0
    s.sameButFreeSlots (runningWithSlot [(0, 0x21#8)] 0 0 0 0x123#16) ∧ ∃ s', runFor 2 s = .next s' :=
  ⟨⟨rfl, fun i hi => absurd hi (Nat.not_lt_zero i.val)⟩, _, rfl⟩

theorem witness_HostOperationsKeepToTheirWindows :
    (State.reset.mem.wf ∧ State.reset.runState = .idle) ∧
    ((running [(0, 0x21#8)] 0 0).mem.wf ∧ (running [(0, 0x21#8)] 0 0).runState = .running) ∧
    (State.reset.halt.mem.wf ∧ State.reset.halt.runState ≠ .idle ∧ State.reset.halt.runState ≠ .running) := by decide

theorem witness_OnlyResetLeavesATerminalState :
    (running [] 0 0).halt.over ∧ ((running [] 0 0).raise .stackUnderflow).over := ⟨.inl rfl, .inr rfl⟩

theorem witness_RunStateChangesOnlyAsTheLifecycleSays :
    (∃ t, step (running [] 0 0) = .next t ∧ t.runState ≠ (running [] 0 0).runState) ∧
    (hostStep .start State.reset).2.runState ≠ State.reset.runState :=
  ⟨⟨_, rfl, by decide⟩, by decide⟩

/-- A running core one call deep, its memory as loaded. -/
def deepCore : State := runningWithSlot [(0, 0x21#8), (0x101, 0xEE#8)] 0x100 1 0 0x0002#16

theorem deepCore_inv : deepCore.Inv where
  memWf := by decide
  pcRange := by decide
  savedRange := by decide
  idleAtEntry := fun h => absurd h (by decide)
  noRecord := fun _ => by decide
  haltBehind := fun h => absurd h (by decide)
  record := fun h => absurd h (by decide)

theorem witness_StepKeepsTheInvariant : ∃ s t : State, s.Inv ∧ step s = .next t :=
  ⟨deepCore, _, deepCore_inv, rfl⟩

theorem witness_HostOperationKeepsTheInvariant : ∃ s : State, s.Inv := ⟨deepCore, deepCore_inv⟩

/-- The state after loading `CALL 0xFFF` at 0, Start and one step: reachable, and no fetch succeeds there. -/
theorem witness_ReachableStatesNeverWrapAndRecordTheTruth :
    (∃ s, Reachable s ∧ s.fetch = none) ∧ (∃ s, Reachable s ∧ s.fetch ≠ none) ∧
    (∃ s, Reachable s ∧ s.succeeded) ∧ ∃ s, Reachable s ∧ s.runState = .faulted := by
  have loaded := Reachable.host .start _ (.host (.writeMem 1#12 0xFF#8) _ (.host (.writeMem 0#12 0x2F#8) _ .reset))
  have called := Reachable.core _ _ loaded rfl
  have started := Reachable.host .start _ .reset
  exact ⟨⟨_, called, by decide⟩, ⟨_, started, by decide⟩, ⟨_, .core _ _ started rfl, rfl⟩,
    ⟨_, .core _ _ called rfl, rfl⟩⟩

theorem witness_EveryRunEnds : (running [(0, 0x20#8)] 0 16).runState = .running := by decide

theorem witness_RunFromAnEmptyStackEndsWithinTheBound :
    (running [(0, 0x20#8)] 0 0).runState = .running ∧ (running [(0, 0x20#8)] 0 0).sp.val = 0 := by decide

theorem witness_CanonicalMemoriesWithTheSameBytesAreEqual :
    Memory.wf [(0, 0x21#8), (0xFFF, 0x12#8)] := by decide

theorem witness_PlacedWordIsTheNextOneRun :
    State.reset.mem.wf ∧ State.reset.fetch ≠ none ∧ (running [] 0xFFE 0).fetch ≠ none := by decide

end Sys2Proof.Tests
end

section
/-! PROOFS. The family of 20_memory.md: the byte order of the fetch (rule R42) and where a fetch is legal (rule R44). -/

namespace Sys2Proof.Machine

/-! ### The byte order, as integers -/

/-- The byte at the lower address holds the nibbles `c` and `x` (rule R42). -/
theorem joinBytes_first_nibbles (b0 b1 : Byte) :
    b0.toNat = 16 * (fieldC (joinBytes b0 b1)).toNat + (fieldX (joinBytes b0 b1)).val := by
  have h0 := b0.isLt
  have h1 := b1.isLt
  rw [fieldC_toNat, fieldX_val, joinBytes_toNat]
  omega

/-- The byte at the higher address holds the nibbles `y` and `d` (rule R42). -/
theorem joinBytes_second_nibbles (b0 b1 : Byte) :
    b1.toNat = 16 * (fieldY (joinBytes b0 b1)).val + (fieldD (joinBytes b0 b1)).toNat := by
  have h1 := b1.isLt
  rw [fieldY_val, fieldD_toNat, joinBytes_toNat]
  omega

/-! ### Where a fetch is legal -/

/-- With both bytes inside memory the fetch gives their word. -/
theorem State.fetch_of_legal {s : State} (h : s.pc.toNat + 1 ≤ 0xFFF) :
    s.fetch = some (s.mem.readWord s.pc.toNat) := by
  rcases s.fetch_cases with ⟨hp, -⟩ | ⟨-, e⟩
  · omega
  · exact e

/-- With the second byte past the last address the fetch fails. -/
theorem State.fetch_of_illegal {s : State} (h : 0xFFF < s.pc.toNat + 1) : s.fetch = none := by
  rcases s.fetch_cases with ⟨-, e⟩ | ⟨hp, -⟩
  · exact e
  · omega

/-- No instruction records OutOfBoundsFetch: one that leaves a running core FAULTED records another cause. -/
theorem exec_faulted_cause_ne {i : Instr} {s t : State} (hr : s.runState = .running) (e : exec i s = .next t)
    (hf : t.runState = .faulted) : t.faultCause ≠ Fault.outOfBoundsFetch.code := by
  cases i with
  | halt =>
    cases e
    simp at hf
  | add x y =>
    cases (exec_add x y s).symm.trans e
    simp [hr] at hf
  | call nnn =>
    rcases exec_call_cases nnn s with ⟨-, e'⟩ | ⟨_, e'⟩
    · cases e'.symm.trans e
      simp [Fault.code]
    · cases e'.symm.trans e
      simp [hr] at hf
  | ret =>
    rcases exec_ret_cases s with ⟨-, e'⟩ | ⟨_, e'⟩
    · cases e'.symm.trans e
      simp [Fault.code]
    · cases e'.symm.trans e
      simp [hr] at hf

/-- A running core raises OutOfBoundsFetch exactly where `pc` is past the last full slot (rules R44, R151). -/
theorem step_eq_outOfBoundsFetch_iff {s : State} (hr : s.runState = .running) :
    step s = .next (s.raise .outOfBoundsFetch) ↔ 0xFFF ≤ s.pc.toNat := by
  rcases step_cases hr with ⟨hp, e⟩ | ⟨hp, ⟨i, -, e⟩ | ⟨-, e⟩⟩
  · exact iff_of_true e hp
  · refine iff_of_false (fun h => ?_) (by omega)
    exact exec_faulted_cause_ne (s := s.advance) hr (e.symm.trans h) rfl rfl
  · refine iff_of_false (fun h => ?_) (by omega)
    have hcause := congrArg State.faultCause (Host.Outcome.next.inj (e.symm.trans h))
    simp [Fault.code] at hcause

/-! ### The obligations -/

/-- Settles O11: the fetched word is the two bytes joined, whose value and nibbles are read off by `joinBytes_toNat` and
the two lemmas above. -/
theorem fetchIsBigEndian : Obligations.FetchIsBigEndian := by
  intro s h
  exact ⟨_, State.fetch_of_legal h, joinBytes_toNat _ _, joinBytes_first_nibbles _ _, joinBytes_second_nibbles _ _⟩

/-- Settles O12: both sides of the bound, the step's from `step_eq_outOfBoundsFetch_iff`, which speaks of every memory. -/
theorem fetchIsLegalUpToTheLastFullSlot : Obligations.FetchIsLegalUpToTheLastFullSlot := by
  intro s hr
  refine ⟨fun h => ⟨⟨_, State.fetch_of_legal h⟩, fun e => ?_⟩, fun h => ⟨State.fetch_of_illegal h, fun m => ?_⟩⟩
  · have hp := (step_eq_outOfBoundsFetch_iff hr).1 e
    omega
  · exact (step_eq_outOfBoundsFetch_iff (s := s.setMem m) hr).2 (Nat.le_of_lt_succ h)

end Sys2Proof.Machine
end

section
/-! PROOFS. The family of 30_encoding.md: the fields of an opcode (rule R61), the opcode map (rule R63) and the words of
class 0 (rule R65). -/

namespace Sys2Proof

/-! ### The fields, in the spec's shifts and masks and by their values -/

/-- The mask of a nibble. -/
theorem toNat_and_nibble (w : Word) : (w &&& 0xF#16).toNat = w.toNat % 16 := by
  rw [BitVec.toNat_and]
  exact Nat.and_two_pow_sub_one_eq_mod w.toNat 4

/-- The mask of an address. -/
theorem toNat_and_address (w : Word) : (w &&& 0xFFF#16).toNat = w.toNat % 4096 := by
  rw [BitVec.toNat_and]
  exact Nat.and_two_pow_sub_one_eq_mod w.toNat 12

theorem fieldC_eq_shift_mask (w : Word) : (fieldC w).setWidth 16 = (w >>> 12) &&& 0xF#16 := by
  apply BitVec.eq_of_toNat_eq
  rw [toNat_and_nibble, BitVec.toNat_setWidth, fieldC_toNat, BitVec.toNat_ushiftRight, Nat.shiftRight_eq_div_pow]
  omega

theorem fieldX_eq_shift_mask (w : Word) : BitVec.ofNat 16 (fieldX w).val = (w >>> 8) &&& 0xF#16 := by
  apply BitVec.eq_of_toNat_eq
  rw [toNat_and_nibble, BitVec.toNat_ofNat, fieldX_val, BitVec.toNat_ushiftRight, Nat.shiftRight_eq_div_pow]
  omega

theorem fieldY_eq_shift_mask (w : Word) : BitVec.ofNat 16 (fieldY w).val = (w >>> 4) &&& 0xF#16 := by
  apply BitVec.eq_of_toNat_eq
  rw [toNat_and_nibble, BitVec.toNat_ofNat, fieldY_val, BitVec.toNat_ushiftRight, Nat.shiftRight_eq_div_pow]
  omega

theorem fieldD_eq_mask (w : Word) : (fieldD w).setWidth 16 = w &&& 0xF#16 := by
  apply BitVec.eq_of_toNat_eq
  rw [toNat_and_nibble, BitVec.toNat_setWidth, fieldD_toNat]
  omega

theorem fieldNNN_eq_mask (w : Word) : (fieldNNN w).setWidth 16 = w &&& 0xFFF#16 := by
  apply BitVec.eq_of_toNat_eq
  rw [toNat_and_address, BitVec.toNat_setWidth, fieldNNN_toNat]
  omega

/-- The address field overlaps the three lower nibbles (rule R61). -/
theorem fieldNNN_toNat_eq_nibbles (w : Word) :
    (fieldNNN w).toNat = 256 * (fieldX w).val + 16 * (fieldY w).val + (fieldD w).toNat := by
  rw [fieldNNN_toNat, fieldX_val, fieldY_val, fieldD_toNat]
  omega

theorem fieldC_eq_iff (w : Word) (c : BitVec 4) : fieldC w = c ↔ w.toNat / 4096 = c.toNat := by
  rw [BitVec.toNat_eq, fieldC_toNat]

theorem fieldX_eq_iff (w : Word) (x : RegIdx) : fieldX w = x ↔ w.toNat / 256 % 16 = x.val := by
  rw [Fin.ext_iff, fieldX_val]

theorem fieldY_eq_iff (w : Word) (y : RegIdx) : fieldY w = y ↔ w.toNat / 16 % 16 = y.val := by
  rw [Fin.ext_iff, fieldY_val]

theorem fieldD_eq_iff (w : Word) (d : BitVec 4) : fieldD w = d ↔ w.toNat % 16 = d.toNat := by
  rw [BitVec.toNat_eq, fieldD_toNat]

/-- The four nibbles determine the word (rule R61: `w = c ++ x ++ y ++ d`). -/
theorem toNat_eq_iff_nibbles (w : Word) (c : BitVec 4) (x y : RegIdx) (d : BitVec 4) :
    w.toNat = 4096 * c.toNat + 256 * x.val + 16 * y.val + d.toNat ↔
      fieldC w = c ∧ fieldX w = x ∧ fieldY w = y ∧ fieldD w = d := by
  have := x.isLt
  have := y.isLt
  have := d.isLt
  rw [fieldC_eq_iff, fieldX_eq_iff, fieldY_eq_iff, fieldD_eq_iff]
  omega

/-! ### The opcode map -/

theorem OpcodeRow.selects_iff (r : OpcodeRow) (w : Word) : r.selects w = true ↔ w &&& r.mask = r.pattern :=
  beq_iff_eq

theorem decode_eq_halt_iff_selects (w : Word) : decode w = .ok .halt ↔ haltRow.selects w = true :=
  (decode_eq_halt w).trans (haltRow_selects w).symm

theorem decode_eq_ret_iff_selects (w : Word) : decode w = .ok .ret ↔ retRow.selects w = true :=
  (decode_eq_ret w).trans (retRow_selects w).symm

theorem decode_eq_call_iff_selects (w : Word) (nnn : Addr) :
    decode w = .ok (.call nnn) ↔ callRow.selects w = true ∧ nnn = fieldNNN w := by
  rw [decode_eq_call, callRow_selects]

theorem decode_eq_add_iff_selects (w : Word) (x y : RegIdx) :
    decode w = .ok (.add x y) ↔ addRow.selects w = true ∧ x = fieldX w ∧ y = fieldY w := by
  rw [decode_eq_add, addRow_selects]

/-- A word decodes to a CALL exactly when it is of class 2. -/
theorem exists_decode_eq_call_iff (w : Word) : (∃ nnn, decode w = .ok (.call nnn)) ↔ fieldC w = 0x2#4 := by
  simp [decode_eq_call, fieldC_eq_iff]

/-- A word decodes to an ADD exactly when it is of class 8 with the sub-opcode 4. -/
theorem exists_decode_eq_add_iff (w : Word) :
    (∃ x y, decode w = .ok (.add x y)) ↔ fieldC w = 0x8#4 ∧ fieldD w = 0x4#4 := by
  simp [decode_eq_add, fieldC_eq_iff, fieldD_eq_iff]

/-- The row of an instruction selects every word that decodes to it. -/
theorem row_selects_of_decode {w : Word} {i : Instr} (h : decode w = .ok i) : i.row.selects w = true := by
  cases i with
  | halt => exact (decode_eq_halt_iff_selects w).1 h
  | ret => exact (decode_eq_ret_iff_selects w).1 h
  | call nnn => exact ((decode_eq_call_iff_selects w nnn).1 h).1
  | add x y => exact ((decode_eq_add_iff_selects w x y).1 h).1

theorem row_mem_opcodeRows (i : Instr) : i.row ∈ opcodeRows := by
  cases i <;> simp [Instr.row, opcodeRows]

/-- A word is an instruction exactly when some row of the opcode map selects it. -/
theorem exists_decode_iff_selects (w : Word) :
    (∃ i, decode w = .ok i) ↔ ∃ r ∈ opcodeRows, r.selects w = true := by
  constructor
  · rintro ⟨i, h⟩
    exact ⟨i.row, row_mem_opcodeRows i, row_selects_of_decode h⟩
  · rintro ⟨r, hr, h⟩
    simp only [opcodeRows, List.mem_cons, List.not_mem_nil, or_false] at hr
    rcases hr with rfl | rfl | rfl | rfl
    · exact ⟨_, (decode_eq_halt_iff_selects w).2 h⟩
    · exact ⟨_, (decode_eq_ret_iff_selects w).2 h⟩
    · exact ⟨_, (decode_eq_call_iff_selects w _).2 ⟨h, rfl⟩⟩
    · exact ⟨_, (decode_eq_add_iff_selects w _ _).2 ⟨h, rfl, rfl⟩⟩

/-- A word is rejected with itself exactly when it is no instruction. -/
theorem decode_eq_unimplemented_iff (w : Word) :
    decode w = .error (.unimplemented w) ↔ ¬ ∃ i, decode w = .ok i := by
  rcases decode_cases w with ⟨i, h⟩ | h <;> simp [h]

/-- A word is an instruction exactly when it is of one of the four forms of rule R63, as integers. -/
theorem exists_decode_iff_toNat (w : Word) :
    (∃ i, decode w = .ok i) ↔
      w.toNat = 0x0000 ∨ w.toNat = 0x00EE ∨ w.toNat / 4096 = 0x2 ∨ w.toNat / 4096 = 0x8 ∧ w.toNat % 16 = 0x4 := by
  simp [exists_decode_iff_selects, opcodeRows, haltRow_selects, retRow_selects, callRow_selects, addRow_selects]

end Sys2Proof

namespace Sys2Proof.Machine

/-! ### The obligations -/

/-- Settles O4: a lemma per field, and the bytes in memory by the lemmas on `joinBytes` that O11 uses. -/
theorem fieldsAreShiftsAndMasks : Obligations.FieldsAreShiftsAndMasks := by
  intro w
  refine ⟨fieldC_eq_shift_mask w, fieldX_eq_shift_mask w, fieldY_eq_shift_mask w, fieldD_eq_mask w, fieldNNN_eq_mask w,
    fieldNNN_toNat_eq_nibbles w, ?_⟩
  rintro m a rfl
  exact ⟨joinBytes_first_nibbles _ _, joinBytes_second_nibbles _ _⟩

/-- Settles O5: by mask and match each row's `selects` is the equation of rule R63; by nibbles the word's value is the
row's; a word is rejected exactly when it is no instruction, so when no row selects it. -/
theorem opcodeMapByMaskAndNibbles : Obligations.OpcodeMapByMaskAndNibbles := by
  intro w
  refine ⟨?_, ?_, fun nnn => ?_, fun x y => ?_, ?_, ?_, exists_decode_eq_call_iff w, exists_decode_eq_add_iff w, ?_⟩
  · exact (decode_eq_halt_iff_selects w).trans (haltRow.selects_iff w)
  · exact (decode_eq_ret_iff_selects w).trans (retRow.selects_iff w)
  · rw [decode_eq_call_iff_selects, OpcodeRow.selects_iff]
    rfl
  · rw [decode_eq_add_iff_selects, OpcodeRow.selects_iff]
    rfl
  · exact (decode_eq_halt w).trans (toNat_eq_iff_nibbles w 0x0#4 0x0 0x0 0x0#4)
  · exact (decode_eq_ret w).trans (toNat_eq_iff_nibbles w 0x0#4 0x0 0xE 0xE#4)
  · rw [decode_eq_unimplemented_iff, exists_decode_iff_selects]
    simp

/-- Settles O7: the values 0x0000 and 0x00EE are whole words, and of the four forms of an instruction only these two are
of class 0; the six words of rule R65 are evaluated. -/
theorem haltAndReturnMatchTheWholeWord : Obligations.HaltAndReturnMatchTheWholeWord := by
  refine ⟨fun w => ?_, fun w => ?_, fun w hc => ?_, ?_, ?_, ?_, ?_, ?_, ?_⟩
  · exact (decode_eq_halt w).trans (BitVec.toNat_eq (y := 0x0000#16)).symm
  · exact (decode_eq_ret w).trans (BitVec.toNat_eq (y := 0x00EE#16)).symm
  · have hclass : w.toNat / 4096 = 0 := (fieldC_eq_iff w 0x0#4).1 hc
    rw [exists_decode_iff_toNat, BitVec.toNat_eq, BitVec.toNat_eq]
    show _ ↔ w.toNat = 0x0000 ∨ w.toNat = 0x00EE
    omega
  all_goals decide

end Sys2Proof.Machine
end

section
/-! PROOFS. The family of 40_instruction_cycle.md: the advance of `pc` between fetch and dispatch (rule R83). -/

namespace Sys2Proof.Machine

/-! ### The two ends of a fetch, in a step -/

/-- A fetch succeeds only with its word inside memory. -/
theorem State.pc_le_of_fetch_some {s : State} {w : Word} (h : s.fetch = some w) : s.pc.toNat ≤ 0xFFE := by
  rcases s.fetch_cases with ⟨-, e⟩ | ⟨hp, -⟩
  · cases e.symm.trans h
  · exact hp

/-- The step of a running core is the running cycle (rule R80). -/
theorem step_of_running {s : State} (hr : s.runState = .running) : step s = runningCycle s := by
  simp only [step, cycle, hr]

/-- The fetched word is dispatched in the advanced state (rules R81, R83). -/
theorem step_of_fetch_some {s : State} {w : Word} (hr : s.runState = .running) (hf : s.fetch = some w) :
    step s = dispatchWord w s.advance := by
  simp only [step_of_running hr, runningCycle, hf]

/-- A failed fetch raises its fault in the state before the advance (rule R83). -/
theorem step_of_fetch_none {s : State} (hr : s.runState = .running) (hf : s.fetch = none) :
    step s = .next (s.raise .outOfBoundsFetch) := by
  simp only [step_of_running hr, runningCycle, hf]

/-! ### The obligation -/

/-- Settles O13: the dispatched state is `s.advance`, and a successful fetch bounds `pc`, so the advance does not wrap. -/
theorem advanceByTwoBeforeDispatch : Obligations.AdvanceByTwoBeforeDispatch := by
  intro s hr
  refine ⟨fun w hf => ?_, fun hf => ⟨_, step_of_fetch_none hr hf, State.raise_pc s _⟩⟩
  have hp := State.pc_le_of_fetch_some hf
  have hadv := State.advance_pc_toNat hp
  exact ⟨s.advance, step_of_fetch_some hr hf, rfl, hadv, by omega⟩

end Sys2Proof.Machine
end

section
/-! PROOFS. The family of 41_system.md: HALT (rule R100). -/

namespace Sys2Proof.Machine

/-! ### The dispatch of a fetched instruction, and the word HALT -/

/-- A running core with a whole word at `pc` runs the instruction it decodes to, in the advanced state (rule R85). -/
theorem step_of_decode {s : State} {i : Instr} (hr : s.runState = .running) (hp : s.pc.toNat ≤ 0xFFE)
    (hd : decode (s.mem.readWord s.pc.toNat) = .ok i) : step s = exec i s.advance := by
  rw [step_of_fetch_some hr (State.fetch_of_legal (Nat.succ_le_succ hp)), dispatchWord, hd]

theorem decode_zero : decode 0x0000#16 = .ok .halt := (decode_eq_halt 0x0000#16).2 rfl

/-- Two zero bytes are the word of HALT (rules R42, R100). -/
theorem decode_readWord_of_zero_bytes {m : Memory} {a : Nat} (h0 : m.read a = 0x00#8) (h1 : m.read (a + 1) = 0x00#8) :
    decode (m.readWord a) = .ok .halt := by
  rw [Memory.readWord, h0, h1]
  exact decode_zero

/-- A halted core stays as it is (rule R80). -/
theorem step_halt (s : State) : step s.halt = .next s.halt := step_of_not_running (by simp)

/-! ### The obligation -/

/-- Settles O18: HALT answers `s.halt`, which differs from `s` in `run_state` alone and is not running; at two zero
bytes the step is HALT in the advanced state. -/
theorem haltEndsTheRunAndChangesNothingElse : Obligations.HaltEndsTheRunAndChangesNothingElse := by
  refine ⟨decode_zero, fun s => ⟨s.halt, exec_halt s, ?_⟩, fun s hr hp h0 h1 => ⟨s.advance.halt, ?_, ?_⟩⟩
  · have hstays : ∀ u, step s.halt = .next u → u = s.halt := fun u e =>
      Host.Outcome.next.inj (e.symm.trans (step_halt s))
    simpa using hstays
  · exact (step_of_decode hr hp (decode_readWord_of_zero_bytes h0 h1)).trans (exec_halt s.advance)
  · exact ⟨s.advance.halt_runState, State.advance_pc_toNat hp, rfl, rfl, rfl, rfl⟩

end Sys2Proof.Machine
end

section
/-! PROOFS. The family of 42_control_transfer.md: CALL (rule R110), RETURN (rule R111), the two together (rule R112) and
the depth of nested calls (rule R113). -/

namespace Sys2Proof.Machine

/-! ### The words of CALL and RETURN -/

/-- The word 0x2nnn is CALL nnn (rule R110). -/
theorem decode_call_word (nnn : Addr) : decode (BitVec.ofNat 16 (0x2000 + nnn.toNat)) = .ok (.call nnn) := by
  have hn := nnn.isLt
  have hw : (BitVec.ofNat 16 (0x2000 + nnn.toNat)).toNat = 0x2000 + nnn.toNat := encode_call_toNat nnn
  refine (decode_eq_call _ _).2 ⟨by omega, BitVec.eq_of_toNat_eq ?_⟩
  rw [fieldNNN_toNat, hw]
  omega

/-- The word 0x00EE is RETURN (rule R111). -/
theorem decode_ret_word : decode 0x00EE#16 = .ok .ret := (decode_eq_ret 0x00EE#16).2 rfl

/-! ### What CALL and RETURN answer -/

/-- A slot after one slot is written: the written one holds the value, every other one is as it was. -/
theorem State.slot_setStack_set (s : State) {n : Nat} (h : n < 16) (w : Word) (i : Fin 16) :
    (s.setStack (s.stack.set n w h)).slot i = if i.val = n then w else s.slot i := by
  simp only [State.slot, State.setStack_stack, Vector.getElem_set, eq_comm (a := n)]

/-- `t` is `s` after a CALL nnn that found a free slot, `pc` being already advanced: rule R110 with its whole frame. -/
structure CallEffect (nnn : Addr) (s t : State) : Prop where
  slot : ∀ i : Fin 16, t.slot i = if i.val = s.sp.val then s.pc else s.slot i
  sp : t.sp.val = s.sp.val + 1
  pc : t.pc.toNat = nnn.toNat
  readV : ∀ j, t.readV j = s.readV j
  mem : t.mem = s.mem
  runState : t.runState = s.runState
  faultCause : t.faultCause = s.faultCause
  faultInfo : t.faultInfo = s.faultInfo

/-- Where a slot is free CALL takes its effect. -/
theorem exec_call_of_lt (nnn : Addr) {s : State} (h : s.sp.val < 16) :
    ∃ t, exec (.call nnn) s = .next t ∧ CallEffect nnn s t := by
  rcases exec_call_cases nnn s with ⟨h16, -⟩ | ⟨_, e⟩
  · omega
  · exact ⟨_, e, {
      slot := s.slot_setStack_set h s.pc
      sp := rfl
      pc := addrOperand_toNat nnn
      readV := fun _ => rfl
      mem := rfl
      runState := rfl
      faultCause := rfl
      faultInfo := rfl }⟩

/-- On a full stack CALL only raises StackOverflow. -/
theorem exec_call_of_full (nnn : Addr) {s : State} (h : s.sp.val = 16) :
    exec (.call nnn) s = .next (s.raise .stackOverflow) := by
  rcases exec_call_cases nnn s with ⟨-, e⟩ | ⟨hlt, -⟩
  · exact e
  · omega

/-- With `k + 1` entries RETURN frees the slot `k` and goes to what it holds. -/
theorem exec_ret_of_succ {s : State} {k : Fin 16} (h : s.sp.val = k.val + 1) :
    exec .ret s = .next ((s.setSp k.castSucc).setPc (s.slot k)) := by
  rcases exec_ret_cases s with ⟨h0, -⟩ | ⟨_, e⟩
  · omega
  · have hk : (⟨s.sp.val - 1, by omega⟩ : Fin 16) = k := Fin.ext (by simp [h])
    have hsp : (⟨s.sp.val - 1, by omega⟩ : Fin 17) = k.castSucc := Fin.ext (by simp [h])
    rw [e, hk, hsp]

/-- On an empty stack RETURN only raises StackUnderflow. -/
theorem exec_ret_of_empty {s : State} (h : s.sp.val = 0) : exec .ret s = .next (s.raise .stackUnderflow) := by
  rcases exec_ret_cases s with ⟨-, e⟩ | ⟨hpos, -⟩
  · exact e
  · omega

/-! ### The step at a known instruction -/

/-- A running core runs its next instruction in the advanced state (rule R85). -/
theorem step_of_nextInstr {s : State} {i : Instr} (hr : s.runState = .running) (hi : s.nextInstr = some i) :
    step s = exec i s.advance := by
  obtain ⟨hp, hd⟩ := State.nextInstr_eq_some.1 hi
  exact step_of_decode hr hp hd

theorem State.atCall_eq_true {s : State} : s.atCall = true ↔ ∃ nnn, s.nextInstr = some (.call nnn) := by
  unfold State.atCall
  split <;> simp_all

/-- What a step that is no RETURN and goes on running does to the stack: a CALL saves the advanced `pc` in the slot
`sp`, and nothing else touches it. -/
theorem stack_after_step_not_ret {s t : State} (hr : s.runState = .running) (hret : s.nextInstr ≠ some .ret)
    (e : step s = .next t) (ht : t.runState = .running) :
    (s.atCall = true ∧ t.sp.val = s.sp.val + 1 ∧
      ∀ i : Fin 16, t.slot i = if i.val = s.sp.val then s.pc + 2#16 else s.slot i) ∨
    (s.atCall = false ∧ t.sp = s.sp ∧ ∀ i, t.slot i = s.slot i) := by
  rcases step_cases hr with ⟨-, e'⟩ | ⟨hp, ⟨i, hd, e'⟩ | ⟨-, e'⟩⟩
  · cases e'.symm.trans e
    simp at ht
  · have hi : s.nextInstr = some i := State.nextInstr_eq_some.2 ⟨hp, hd⟩
    rw [e'] at e
    cases i with
    | halt =>
      cases (exec_halt s.advance).symm.trans e
      simp at ht
    | ret => exact absurd hi hret
    | call nnn =>
      rcases exec_call_cases nnn s.advance with ⟨-, efull⟩ | ⟨hlt, -⟩
      · cases efull.symm.trans e
        simp at ht
      · obtain ⟨u, eu, hu⟩ := exec_call_of_lt nnn hlt
        cases eu.symm.trans e
        exact .inl ⟨State.atCall_eq_true.2 ⟨nnn, hi⟩, hu.sp, hu.slot⟩
    | add x y =>
      cases (exec_add x y s.advance).symm.trans e
      exact .inr ⟨by simp [State.atCall, hi], rfl, fun _ => rfl⟩
  · cases e'.symm.trans e
    simp at ht

/-! ### Histories without a RETURN -/

/-- `f 0`, ..., `f n` are running states that `n` steps pass through, from an empty stack and with no RETURN. -/
structure RetFreeHistory (f : Nat → State) (n : Nat) : Prop where
  start : (f 0).sp.val = 0
  steps : ∀ k < n, step (f k) = .next (f (k + 1)) ∧ (f k).nextInstr ≠ some .ret
  running : ∀ k ≤ n, (f k).runState = .running

/-- A history without its last step is one. -/
theorem RetFreeHistory.init {f : Nat → State} {n : Nat} (h : RetFreeHistory f (n + 1)) : RetFreeHistory f n where
  start := h.start
  steps := fun k hk => h.steps k (by omega)
  running := fun k hk => h.running k (by omega)

/-- What the last step of a history does to the stack. -/
theorem RetFreeHistory.last_step {f : Nat → State} {n : Nat} (h : RetFreeHistory f (n + 1)) :
    ((f n).atCall = true ∧ (f (n + 1)).sp.val = (f n).sp.val + 1 ∧
      ∀ i : Fin 16, (f (n + 1)).slot i = if i.val = (f n).sp.val then (f n).pc + 2#16 else (f n).slot i) ∨
    ((f n).atCall = false ∧ (f (n + 1)).sp = (f n).sp ∧ ∀ i, (f (n + 1)).slot i = (f n).slot i) := by
  obtain ⟨e, hret⟩ := h.steps n n.lt_succ_self
  exact stack_after_step_not_ret (h.running n n.le_succ) hret e (h.running (n + 1) le_rfl)

theorem callsIn_succ (f : Nat → State) (n : Nat) :
    callsIn f (n + 1) = callsIn f n + if (f n).atCall = true then 1 else 0 := by
  simp only [callsIn, List.range_succ, List.countP_append, List.countP_singleton]

theorem callsIn_mono (f : Nat → State) : Monotone (callsIn f) :=
  monotone_nat_of_le_succ fun n => by rw [callsIn_succ]; omega

/-- A CALL before the state `n` is counted in `callsIn f n`. -/
theorem callsIn_lt {f : Nat → State} {k n : Nat} (hk : k < n) (hc : (f k).atCall = true) :
    callsIn f k < callsIn f n := by
  have hle : callsIn f (k + 1) ≤ callsIn f n := callsIn_mono f hk
  rw [callsIn_succ, if_pos hc] at hle
  omega

/-- `sp` counts the CALLs. -/
theorem RetFreeHistory.sp_eq {f : Nat → State} {n : Nat} (h : RetFreeHistory f n) : (f n).sp.val = callsIn f n := by
  induction n with
  | zero => exact h.start
  | succ n ih =>
    have ih := ih h.init
    rw [callsIn_succ]
    rcases h.last_step with ⟨hc, hsp, -⟩ | ⟨hc, hsp, -⟩
    · rw [hsp, ih, if_pos hc]
    · rw [hsp, ih, if_neg (by simp [hc]), Nat.add_zero]

/-- Each CALL's return address stands in the slot of its depth: a later CALL is deeper, so it writes another slot. -/
theorem RetFreeHistory.slot_eq {f : Nat → State} {n k : Nat} (h : RetFreeHistory f n) (hk : k < n)
    (hc : (f k).atCall = true) {i : Fin 16} (hi : i.val = callsIn f k) : (f n).slot i = (f k).pc + 2#16 := by
  induction n with
  | zero => omega
  | succ n ih =>
    have hsp := h.init.sp_eq
    rcases Nat.lt_succ_iff_lt_or_eq.1 hk with hlt | rfl
    · have hdeeper := callsIn_lt hlt hc
      rcases h.last_step with ⟨-, -, hslot⟩ | ⟨-, -, hslot⟩
      · rw [hslot, if_neg (by omega), ih h.init hlt]
      · rw [hslot, ih h.init hlt]
    · rcases h.last_step with ⟨-, -, hslot⟩ | ⟨hnot, -, -⟩
      · rw [hslot, if_pos (hi.trans hsp.symm)]
      · simp [hc] at hnot

/-! ### The obligations -/

/-- Settles O26: `sp` and the slots by induction on the history; the next CALL and the RETURN at depth 0 by what each
answers in the advanced state. -/
theorem sixteenNestedCallsAndNoMore : Obligations.SixteenNestedCallsAndNoMore := by
  refine ⟨fun f n start steps running => ?_, fun s hr hret h0 => ?_⟩
  · have h : RetFreeHistory f n := ⟨start, steps, running⟩
    have hr := h.running n le_rfl
    refine ⟨h.sp_eq, fun k hk hc i hi => h.slot_eq hk hc hi, fun hc hlt => ?_, fun hc hfull => ?_⟩
    all_goals obtain ⟨nnn, hi⟩ := State.atCall_eq_true.1 hc
    · rw [← h.sp_eq] at hlt ⊢
      obtain ⟨t, e, ht⟩ := exec_call_of_lt nnn (s := (f n).advance) hlt
      exact ⟨t, (step_of_nextInstr hr hi).trans e, ht.runState.trans hr, ht.sp⟩
    · rw [← h.sp_eq] at hfull
      exact (step_of_nextInstr hr hi).trans (exec_call_of_full nnn hfull)
  · exact (step_of_nextInstr hr hret).trans (exec_ret_of_empty h0)

/-- Settles O19: below depth 16 CALL takes its effect, at depth 16 it only raises. -/
theorem callPushesAndGoesToItsTarget : Obligations.CallPushesAndGoesToItsTarget := by
  refine fun nnn s => ⟨decode_call_word nnn, fun hlt => ?_, fun hfull => ?_⟩
  · obtain ⟨t, e, ht⟩ := exec_call_of_lt nnn hlt
    exact ⟨t, e, ht.slot, ht.sp, ht.pc, ht.readV, fun a => by rw [ht.mem], ht.runState, ht.faultCause, ht.faultInfo⟩
  · exact ⟨_, exec_call_of_full nnn hfull, rfl, fun _ => rfl, hfull, rfl, fun _ => rfl, fun _ => rfl⟩

/-- Settles O20: with an entry RETURN writes `sp` and `pc` alone, with none it only raises. -/
theorem returnPopsIntoThePc : Obligations.ReturnPopsIntoThePc := by
  refine ⟨decode_ret_word, fun s => ⟨fun k hk => ?_, fun h0 => ?_⟩⟩
  · exact ⟨_, exec_ret_of_succ hk, rfl, rfl, fun _ => rfl, fun _ => rfl, fun _ => rfl, rfl, rfl, rfl⟩
  · exact ⟨_, exec_ret_of_empty h0, rfl, fun _ => rfl, h0, rfl, fun _ => rfl, fun _ => rfl⟩

/-- Settles O25: the CALL reaches `t` with the advanced `pc` in the slot `k`; memory is unchanged, so the next word is
RETURN, and it goes to what the slot `k` holds. -/
theorem callThenReturnComesBack : Obligations.CallThenReturnComesBack := by
  intro s nnn k hr hk hcall hn hret
  obtain ⟨t, ecall, ht⟩ := exec_call_of_lt nnn (s := s.advance) (hk.trans_lt k.isLt)
  have hrt : t.runState = .running := ht.runState.trans hr
  have hnext : t.nextInstr = some .ret := by
    rw [State.nextInstr_eq_some, ht.pc, ht.mem, s.advance_mem, hret]
    exact ⟨hn, decode_ret_word⟩
  have hsp : t.advance.sp.val = k.val + 1 := by rw [t.advance_sp, ht.sp, s.advance_sp, hk]
  have hslot : t.slot k = s.advance.pc := by rw [ht.slot, s.advance_sp, if_pos hk.symm]
  have hback : (t.slot k).toNat = s.pc.toNat + 2 := by
    rw [hslot, State.advance_pc_toNat (State.nextInstr_eq_some.1 hcall).1]
  have hother : ∀ i, i ≠ k → t.slot i = s.slot i := fun i hi => by
    rw [ht.slot, s.advance_sp, hk, if_neg (Fin.val_ne_of_ne hi), s.slot_advance]
  have erun : runFor 2 s = .next ((t.advance.setSp k.castSucc).setPc (t.slot k)) := by
    rw [runFor_succ 1 ((step_of_nextInstr hr hcall).trans ecall),
      runFor_succ 0 ((step_of_nextInstr hrt hnext).trans (exec_ret_of_succ hsp)), runFor_zero, t.slot_advance]
  refine ⟨_, erun, hrt, hback, rfl, hback, hother, ht.readV, fun a => ?_⟩
  show t.mem.read a = s.mem.read a
  rw [ht.mem, s.advance_mem]

end Sys2Proof.Machine
end

section
/-! PROOFS. The family of 43_arithmetic.md: ADD has no carry in (rule R134). -/

namespace Sys2Proof.Machine

/-! ### Two writes in a row -/

/-- Of two writes to one register the second remains. -/
@[simp] theorem State.writeV_writeV_same (s : State) (i : RegIdx) (v w : Byte) :
    (s.writeV i v).writeV i w = s.writeV i w :=
  congrArg s.setV (Vector.set_set v i.isLt)

/-- Writes to two registers commute. -/
theorem State.writeV_comm (s : State) {i j : RegIdx} (h : i ≠ j) (v w : Byte) :
    (s.writeV i v).writeV j w = (s.writeV j w).writeV i v :=
  congrArg s.setV (Vector.set_comm v w (Fin.val_ne_of_ne h))

/-! ### The obligation -/

/-- Settles O24: neither operand is `V[15]`, so `v` is not read; the write of `v` moves past the write of the sum, and the
write of the carry replaces it. -/
theorem addHasNoCarryIn : Obligations.AddHasNoCarryIn := by
  intro x y s v hx hy
  refine ⟨_, exec_add x y s, ?_⟩
  rw [exec_add, s.readV_writeV_other v hx.symm, s.readV_writeV_other v hy.symm, s.writeV_comm hx.symm,
    State.writeV_writeV_same]

end Sys2Proof.Machine
end

section
/-! PROOFS. The family of 60_exceptions.md: a fault is precise (rule R159). -/

namespace Sys2Proof.Machine

/-! ### A faulting step is `State.raise` and nothing more -/

/-- An instruction that leaves a running core FAULTED has only raised: none faults after a write of its own. -/
theorem exec_faulted_eq_raise {i : Instr} {s t : State} (hr : s.runState = .running) (e : exec i s = .next t)
    (hf : t.runState = .faulted) : ∃ f, t = s.raise f := by
  cases i with
  | halt =>
    cases (exec_halt s).symm.trans e
    simp at hf
  | add x y =>
    cases (exec_add x y s).symm.trans e
    simp [hr] at hf
  | call nnn =>
    rcases exec_call_cases nnn s with ⟨-, efull⟩ | ⟨_, epush⟩
    · exact ⟨_, Host.Outcome.next.inj (e.symm.trans efull)⟩
    · cases epush.symm.trans e
      simp [hr] at hf
  | ret =>
    rcases exec_ret_cases s with ⟨-, eempty⟩ | ⟨_, epop⟩
    · exact ⟨_, Host.Outcome.next.inj (e.symm.trans eempty)⟩
    · cases epop.symm.trans e
      simp [hr] at hf

/-- A step of a running core that ends FAULTED has raised in the state itself where the fetch failed (rule R151), else
in the advanced one. -/
theorem step_faulted_cases {s t : State} (hr : s.runState = .running) (e : step s = .next t)
    (hf : t.runState = .faulted) :
    (s.fetch = none ∧ t = s.raise .outOfBoundsFetch) ∨
    (s.pc.toNat ≤ 0xFFE ∧ ∃ f, t = s.advance.raise f) := by
  rcases step_cases hr with ⟨hp, e'⟩ | ⟨hp, ⟨i, -, e'⟩ | ⟨-, e'⟩⟩
  · exact .inl ⟨State.fetch_of_illegal (Nat.lt_succ_of_le hp), Host.Outcome.next.inj (e.symm.trans e')⟩
  · exact .inr ⟨hp, exec_faulted_eq_raise (s := s.advance) hr (e'.symm.trans e) hf⟩
  · exact .inr ⟨hp, _, Host.Outcome.next.inj (e.symm.trans e')⟩

/-! ### The obligation -/

/-- Settles O28: the step is `State.raise`, which writes the fault record alone, in the state or in the advanced one; a
FAULTED core then stays as it is. -/
theorem faultsArePrecise : Obligations.FaultsArePrecise := by
  intro s t hr e hf
  have hstays : ∀ u, step t = .next u → u = t := fun u eu =>
    Host.Outcome.next.inj (eu.symm.trans (step_of_not_running (by simp [hf])))
  rcases step_faulted_cases hr e hf with ⟨hfetch, rfl⟩ | ⟨hp, f, rfl⟩
  · exact ⟨s.readV_raise _, s.slot_raise _, rfl, fun _ => rfl, .inl ⟨hfetch, s.raise_pc _⟩, hstays⟩
  · have hfetch : s.fetch ≠ none := by simp [State.fetch_of_legal (Nat.succ_le_succ hp)]
    exact ⟨s.advance.readV_raise f, s.advance.slot_raise f, rfl, fun _ => rfl,
      .inr ⟨hfetch, State.advance_pc_toNat hp⟩, hstays⟩

end Sys2Proof.Machine
end

section
/-! PROOFS. The step of a running core as a relation, one constructor for each way a step can end (the summary of rule
R168); the proofs about steps that follow are case splits of it. -/

namespace Sys2Proof.Machine

/-! ### The states the three instructions that go on running leave -/

/-- The state after ADD Vx, Vy: the result first, the carry second (rules R130, R132). -/
def State.afterAdd (s : State) (x y : RegIdx) : State :=
  (s.writeV x (sumResult (s.readV x) (s.readV y))).writeV 15 (carryOut (s.readV x) (s.readV y))

@[simp] theorem State.afterAdd_pc (s : State) (x y : RegIdx) : (s.afterAdd x y).pc = s.pc := rfl
@[simp] theorem State.afterAdd_stack (s : State) (x y : RegIdx) : (s.afterAdd x y).stack = s.stack := rfl
@[simp] theorem State.afterAdd_sp (s : State) (x y : RegIdx) : (s.afterAdd x y).sp = s.sp := rfl
@[simp] theorem State.afterAdd_mem (s : State) (x y : RegIdx) : (s.afterAdd x y).mem = s.mem := rfl
@[simp] theorem State.afterAdd_runState (s : State) (x y : RegIdx) : (s.afterAdd x y).runState = s.runState := rfl
@[simp] theorem State.afterAdd_faultCause (s : State) (x y : RegIdx) : (s.afterAdd x y).faultCause = s.faultCause := rfl
@[simp] theorem State.afterAdd_faultInfo (s : State) (x y : RegIdx) : (s.afterAdd x y).faultInfo = s.faultInfo := rfl
@[simp] theorem State.slot_afterAdd (s : State) (x y : RegIdx) (i : Fin 16) : (s.afterAdd x y).slot i = s.slot i := rfl

theorem State.readV_afterAdd (s : State) (x y j : RegIdx) :
    (s.afterAdd x y).readV j =
      if j = 15 then carryOut (s.readV x) (s.readV y)
      else if j = x then sumResult (s.readV x) (s.readV y) else s.readV j := by
  simp only [State.afterAdd, State.readV_writeV, eq_comm]

@[simp] theorem State.readV_afterAdd_carry (s : State) (x y : RegIdx) :
    (s.afterAdd x y).readV 15 = carryOut (s.readV x) (s.readV y) := by
  rw [State.readV_afterAdd, if_pos rfl]

theorem State.readV_afterAdd_dest (s : State) {x : RegIdx} (y : RegIdx) (hx : x ≠ 15) :
    (s.afterAdd x y).readV x = sumResult (s.readV x) (s.readV y) := by
  rw [State.readV_afterAdd, if_neg hx, if_pos rfl]

theorem State.readV_afterAdd_other (s : State) {x y j : RegIdx} (hx : j ≠ x) (h15 : j ≠ 15) :
    (s.afterAdd x y).readV j = s.readV j := by
  rw [State.readV_afterAdd, if_neg h15, if_neg hx]

/-- The state after a CALL into the free slot `k` (rule R110). -/
def State.afterCall (s : State) (k : Fin 16) (nnn : Addr) : State :=
  ((s.setStack (s.stack.set k.val s.pc)).setSp k.succ).setPc (addrOperand nnn)

@[simp] theorem State.afterCall_V (s : State) (k : Fin 16) (nnn : Addr) : (s.afterCall k nnn).V = s.V := rfl
@[simp] theorem State.afterCall_pc (s : State) (k : Fin 16) (nnn : Addr) :
    (s.afterCall k nnn).pc = addrOperand nnn := rfl
@[simp] theorem State.afterCall_sp (s : State) (k : Fin 16) (nnn : Addr) : (s.afterCall k nnn).sp = k.succ := rfl
@[simp] theorem State.afterCall_mem (s : State) (k : Fin 16) (nnn : Addr) : (s.afterCall k nnn).mem = s.mem := rfl
@[simp] theorem State.afterCall_runState (s : State) (k : Fin 16) (nnn : Addr) :
    (s.afterCall k nnn).runState = s.runState := rfl
@[simp] theorem State.afterCall_faultCause (s : State) (k : Fin 16) (nnn : Addr) :
    (s.afterCall k nnn).faultCause = s.faultCause := rfl
@[simp] theorem State.afterCall_faultInfo (s : State) (k : Fin 16) (nnn : Addr) :
    (s.afterCall k nnn).faultInfo = s.faultInfo := rfl
@[simp] theorem State.readV_afterCall (s : State) (k : Fin 16) (nnn : Addr) (j : RegIdx) :
    (s.afterCall k nnn).readV j = s.readV j := rfl

theorem State.slot_afterCall (s : State) (k : Fin 16) (nnn : Addr) (i : Fin 16) :
    (s.afterCall k nnn).slot i = if i = k then s.pc else s.slot i := by
  simp only [State.afterCall, State.slot_setPc, State.slot_setSp, State.slot_setStack_set, Fin.ext_iff]

/-- The state after a RETURN that frees the slot `k` (rule R111). -/
def State.afterRet (s : State) (k : Fin 16) : State := (s.setSp k.castSucc).setPc (s.slot k)

@[simp] theorem State.afterRet_V (s : State) (k : Fin 16) : (s.afterRet k).V = s.V := rfl
@[simp] theorem State.afterRet_pc (s : State) (k : Fin 16) : (s.afterRet k).pc = s.slot k := rfl
@[simp] theorem State.afterRet_stack (s : State) (k : Fin 16) : (s.afterRet k).stack = s.stack := rfl
@[simp] theorem State.afterRet_sp (s : State) (k : Fin 16) : (s.afterRet k).sp = k.castSucc := rfl
@[simp] theorem State.afterRet_mem (s : State) (k : Fin 16) : (s.afterRet k).mem = s.mem := rfl
@[simp] theorem State.afterRet_runState (s : State) (k : Fin 16) : (s.afterRet k).runState = s.runState := rfl
@[simp] theorem State.afterRet_faultCause (s : State) (k : Fin 16) : (s.afterRet k).faultCause = s.faultCause := rfl
@[simp] theorem State.afterRet_faultInfo (s : State) (k : Fin 16) : (s.afterRet k).faultInfo = s.faultInfo := rfl
@[simp] theorem State.readV_afterRet (s : State) (k : Fin 16) (j : RegIdx) : (s.afterRet k).readV j = s.readV j := rfl
@[simp] theorem State.slot_afterRet (s : State) (k : Fin 16) (i : Fin 16) : (s.afterRet k).slot i = s.slot i := rfl

theorem exec_add_eq_afterAdd (x y : RegIdx) (s : State) : exec (.add x y) s = .next (s.afterAdd x y) := exec_add x y s

theorem exec_call_eq_afterCall (nnn : Addr) {s : State} {k : Fin 16} (h : s.sp.val = k.val) :
    exec (.call nnn) s = .next (s.afterCall k nnn) := by
  rcases exec_call_cases nnn s with ⟨h16, -⟩ | ⟨_, e⟩
  · omega
  · simp only [e, State.afterCall, h, Fin.succ]

theorem exec_ret_eq_afterRet {s : State} {k : Fin 16} (h : s.sp.val = k.val + 1) :
    exec .ret s = .next (s.afterRet k) := exec_ret_of_succ h

/-! ### The relation -/

/-- A running core steps from `s` to the state given: the four faults, HALT, ADD, and CALL and RETURN with the slot they
use. -/
inductive RunningStep (s : State) : State → Prop where
  | fetchFault (hp : 0xFFF ≤ s.pc.toNat) : RunningStep s (s.raise .outOfBoundsFetch)
  | unimplemented (hp : s.pc.toNat ≤ 0xFFE)
      (hd : decode (s.mem.readWord s.pc.toNat) = .error (.unimplemented (s.mem.readWord s.pc.toNat))) :
      RunningStep s (s.advance.raise (.unimplementedOpcode (s.mem.readWord s.pc.toNat)))
  | halt (hp : s.pc.toNat ≤ 0xFFE) (hd : decode (s.mem.readWord s.pc.toNat) = .ok .halt) :
      RunningStep s s.advance.halt
  | add (x y : RegIdx) (hp : s.pc.toNat ≤ 0xFFE) (hd : decode (s.mem.readWord s.pc.toNat) = .ok (.add x y)) :
      RunningStep s (s.advance.afterAdd x y)
  | callFull (nnn : Addr) (hp : s.pc.toNat ≤ 0xFFE) (hd : decode (s.mem.readWord s.pc.toNat) = .ok (.call nnn))
      (hsp : s.sp.val = 16) : RunningStep s (s.advance.raise .stackOverflow)
  | call (nnn : Addr) (k : Fin 16) (hp : s.pc.toNat ≤ 0xFFE)
      (hd : decode (s.mem.readWord s.pc.toNat) = .ok (.call nnn)) (hsp : s.sp.val = k.val) :
      RunningStep s (s.advance.afterCall k nnn)
  | retEmpty (hp : s.pc.toNat ≤ 0xFFE) (hd : decode (s.mem.readWord s.pc.toNat) = .ok .ret) (hsp : s.sp.val = 0) :
      RunningStep s (s.advance.raise .stackUnderflow)
  | ret (k : Fin 16) (hp : s.pc.toNat ≤ 0xFFE) (hd : decode (s.mem.readWord s.pc.toNat) = .ok .ret)
      (hsp : s.sp.val = k.val + 1) : RunningStep s (s.advance.afterRet k)

/-- A word that is no instruction is raised, in whatever state it is dispatched (rule R154). -/
theorem dispatchWord_of_unimplemented {w : Word} (hd : decode w = .error (.unimplemented w)) (s : State) :
    dispatchWord w s = .next (s.raise (.unimplementedOpcode w)) := by
  rw [dispatchWord, hd]

theorem dispatchWord_of_decode {w : Word} {i : Instr} (hd : decode w = .ok i) (s : State) :
    dispatchWord w s = exec i s := by
  rw [dispatchWord, hd]

theorem step_of_runningStep {s t : State} (hr : s.runState = .running) (h : RunningStep s t) : step s = .next t := by
  cases h with
  | fetchFault hp => exact (step_eq_outOfBoundsFetch_iff hr).2 hp
  | unimplemented hp hd =>
    rw [step_of_fetch_some hr (State.fetch_of_legal (Nat.succ_le_succ hp)), dispatchWord_of_unimplemented hd]
  | halt hp hd => exact (step_of_decode hr hp hd).trans (exec_halt s.advance)
  | add x y hp hd => exact (step_of_decode hr hp hd).trans (exec_add_eq_afterAdd x y s.advance)
  | callFull nnn hp hd hsp => exact (step_of_decode hr hp hd).trans (exec_call_of_full nnn hsp)
  | call nnn k hp hd hsp => exact (step_of_decode hr hp hd).trans (exec_call_eq_afterCall nnn hsp)
  | retEmpty hp hd hsp => exact (step_of_decode hr hp hd).trans (exec_ret_of_empty hsp)
  | ret k hp hd hsp => exact (step_of_decode hr hp hd).trans (exec_ret_eq_afterRet hsp)

/-- One of the eight ways is open to every state. -/
theorem exists_runningStep (s : State) : ∃ t, RunningStep s t := by
  rcases Nat.lt_or_ge 0xFFE s.pc.toNat with hp | hp
  · exact ⟨_, .fetchFault hp⟩
  rcases decode_cases (s.mem.readWord s.pc.toNat) with ⟨i, hd⟩ | hd
  · cases i with
    | halt => exact ⟨_, .halt hp hd⟩
    | add x y => exact ⟨_, .add x y hp hd⟩
    | call nnn =>
      rcases Nat.lt_or_ge s.sp.val 16 with hsp | hsp
      · exact ⟨_, .call nnn ⟨s.sp.val, hsp⟩ hp hd rfl⟩
      · exact ⟨_, .callFull nnn hp hd (by omega)⟩
    | ret =>
      rcases Nat.eq_zero_or_pos s.sp.val with hsp | hsp
      · exact ⟨_, .retEmpty hp hd hsp⟩
      · exact ⟨_, .ret ⟨s.sp.val - 1, by omega⟩ hp hd (Nat.sub_add_cancel hsp).symm⟩
  · exact ⟨_, .unimplemented hp hd⟩

/-- The step of a running core is the relation. -/
theorem step_eq_next_iff {s t : State} (hr : s.runState = .running) : step s = .next t ↔ RunningStep s t := by
  refine ⟨fun e => ?_, step_of_runningStep hr⟩
  obtain ⟨u, hu⟩ := exists_runningStep s
  cases (step_of_runningStep hr hu).symm.trans e
  exact hu

/-- Every state has a next one: no core is stuck. -/
theorem exists_step (s : State) : ∃ t, step s = .next t := by
  by_cases hr : s.runState = .running
  · obtain ⟨t, ht⟩ := exists_runningStep s
    exact ⟨t, step_of_runningStep hr ht⟩
  · exact ⟨s, step_of_not_running hr⟩

/-- Everything a step can be: of a running core, one of the eight ways; of any other, none. -/
theorem step_next_cases {s t : State} (e : step s = .next t) :
    (s.runState = .running ∧ RunningStep s t) ∨ (s.runState ≠ .running ∧ t = s) := by
  by_cases hr : s.runState = .running
  · exact .inl ⟨hr, (step_eq_next_iff hr).1 e⟩
  · exact .inr ⟨hr, Host.Outcome.next.inj (e.symm.trans (step_of_not_running hr))⟩

end Sys2Proof.Machine
end

section
/-! PROOFS. Decoding and encoding: the laws of rule R73, the disjoint rows of rule R64, the classes of rule R66, and the
written forms of rule R71. -/

namespace Sys2Proof

/-! ### The two laws -/

/-- The word 0x8xy4 is ADD Vx, Vy (rule R130). -/
theorem decode_add_word (x y : RegIdx) :
    decode (BitVec.ofNat 16 (0x8004 + 256 * x.val + 16 * y.val)) = .ok (.add x y) := by
  have hx := x.isLt
  have hy := y.isLt
  have hw : (BitVec.ofNat 16 (0x8004 + 256 * x.val + 16 * y.val)).toNat = 0x8004 + 256 * x.val + 16 * y.val :=
    encode_add_toNat x y
  refine (decode_eq_add _ _ _).2 ⟨by omega, Fin.ext ?_, Fin.ext ?_⟩
  · rw [fieldX_val, hw]
    omega
  · rw [fieldY_val, hw]
    omega

theorem decode_encode (i : Instr) : decode (encode i) = .ok i := by
  cases i with
  | halt => exact Machine.decode_zero
  | ret => exact Machine.decode_ret_word
  | call nnn => exact Machine.decode_call_word nnn
  | add x y => exact decode_add_word x y

theorem encode_of_decode {w : Word} {i : Instr} (h : decode w = .ok i) : encode i = w := by
  apply BitVec.eq_of_toNat_eq
  cases i with
  | halt => exact ((decode_eq_halt w).1 h).symm
  | ret => exact ((decode_eq_ret w).1 h).symm
  | call nnn =>
    obtain ⟨hc, rfl⟩ := (decode_eq_call w nnn).1 h
    rw [encode_call_toNat, fieldNNN_toNat]
    omega
  | add x y =>
    obtain ⟨⟨hc, hd⟩, rfl, rfl⟩ := (decode_eq_add w x y).1 h
    rw [encode_add_toNat, fieldX_val, fieldY_val]
    omega

/-! ### Bytes -/

/-- Two bytes decode as the word they make, and what follows them is handed back (rule R60). -/
theorem decodeBytes_eq_ok_iff (b0 b1 : Byte) (rest : List Byte) (i : Instr) (tail : List Byte) :
    decodeBytes (b0 :: b1 :: rest) = .ok (i, tail) ↔ decode (joinBytes b0 b1) = .ok i ∧ rest = tail := by
  rw [decodeBytes]
  rcases decode_cases (joinBytes b0 b1) with ⟨j, h⟩ | h <;> simp [h]

theorem decodeBytes_wordBytes_iff (w : Word) (rest : List Byte) (i : Instr) :
    decodeBytes (wordBytes w ++ rest) = .ok (i, rest) ↔ decode w = .ok i := by
  simp [wordBytes, decodeBytes_eq_ok_iff]

/-- The decoder of the table reads a word of 16 bits as the decoder does. -/
theorem decodeTableWord_eq_some_iff (w : Word) (i : Instr) :
    decodeTableWord 16 w.toNat = some i ↔ decode w = .ok i := by
  have hw : BitVec.ofNat 16 (w.toNat % 2 ^ 16) = w := by
    rw [Nat.mod_eq_of_lt w.isLt, BitVec.ofNat_toNat, BitVec.setWidth_eq]
  rw [decodeTableWord, hw, wordBytes, decodeBytes, joinBytes_high_low]
  rcases decode_cases w with ⟨j, h⟩ | h <;> simp [h]

/-! ### Rows and words -/

/-- A row selects only words of its own instructions. -/
theorem exists_decode_of_selects {w : Word} {r : OpcodeRow} (hr : r ∈ opcodeRows) (h : r.selects w = true) :
    ∃ i, decode w = .ok i ∧ i.row = r := by
  simp only [opcodeRows, List.mem_cons, List.not_mem_nil, or_false] at hr
  rcases hr with rfl | rfl | rfl | rfl
  · exact ⟨.halt, (decode_eq_halt_iff_selects w).2 h, rfl⟩
  · exact ⟨.ret, (decode_eq_ret_iff_selects w).2 h, rfl⟩
  · exact ⟨.call (fieldNNN w), (decode_eq_call_iff_selects w _).2 ⟨h, rfl⟩, rfl⟩
  · exact ⟨.add (fieldX w) (fieldY w), (decode_eq_add_iff_selects w _ _).2 ⟨h, rfl, rfl⟩, rfl⟩

/-- An instruction has one written form, and only that form stands for it. -/
theorem written_of_toInstr {w : Written} {i : Instr} (h : w.toInstr = some i) :
    w.wellFormed = true ∧ i.written = w := by
  cases w with
  | halt =>
    cases h
    exact ⟨rfl, rfl⟩
  | ret =>
    cases h
    exact ⟨rfl, rfl⟩
  | call a =>
    by_cases ha : a ≤ 0xFFF
    · simp only [Written.toInstr, ha, if_true] at h
      cases h
      have hmod : a % 4096 = a := Nat.mod_eq_of_lt (by omega)
      simp [Written.wellFormed, Instr.written, ha, hmod]
    · simp [Written.toInstr, ha] at h
  | add x y =>
    by_cases hxy : x < 16 ∧ y < 16
    · obtain ⟨hx, hy⟩ := hxy
      simp only [Written.toInstr, hx, hy, dite_true] at h
      cases h
      simp [Written.wellFormed, Instr.written, Nat.le_of_lt_succ hx, Nat.le_of_lt_succ hy]
    · simp only [Written.toInstr] at h
      split_ifs at h with hx hy
      exact absurd ⟨hx, hy⟩ hxy

theorem toInstr_written (i : Instr) : i.written.toInstr = some i := by
  cases i with
  | halt => exact Laws.OperandsInRange.halt.2
  | ret => exact Laws.OperandsInRange.ret.2
  | call nnn => exact (Laws.OperandsInRange.call nnn).2
  | add x y => exact (Laws.OperandsInRange.add x y).2

/-! ### The obligations -/

/-- Settles O1: `decode_encode`, on words and then on bytes. -/
theorem decodeOfEncodeGivesTheInstruction : Obligations.DecodeOfEncodeGivesTheInstruction := fun i rest =>
  ⟨decode_encode i, (decodeBytes_wordBytes_iff (encode i) rest i).2 (decode_encode i)⟩

/-- Settles O2: a word that decodes to `i` has the value `encode i` has. -/
theorem encodeOfDecodeGivesTheWord : Obligations.EncodeOfDecodeGivesTheWord := fun _ _ h => encode_of_decode h

/-- Settles O6: a row that selects `w` is the row of the one instruction that `w` decodes to. -/
theorem noWordSelectsTwoRows : Obligations.NoWordSelectsTwoRows := by
  intro w r₁ r₂ hr₁ hr₂ h₁ h₂
  obtain ⟨i, hi, rfl⟩ := exists_decode_of_selects hr₁ h₁
  obtain ⟨j, hj, rfl⟩ := exists_decode_of_selects hr₂ h₂
  cases hi.symm.trans hj
  rfl

/-- Settles O8: the four forms of an instruction by class; every other word is rejected with itself and so raised. -/
theorem implementedWordsByClass : Obligations.ImplementedWordsByClass := by
  refine fun w => ⟨?_, fun h => ?_⟩
  · rw [exists_decode_iff_toNat]
    omega
  · have hd := (decode_eq_unimplemented_iff w).2 h
    exact ⟨hd, Machine.dispatchWord_of_unimplemented hd⟩

/-- Settles O10: a form in range is its instruction's own written form, which is well-formed for every instruction. -/
theorem writtenFormsAreInstructionsWhenInRange : Obligations.WrittenFormsAreInstructionsWhenInRange := by
  refine fun w i => ⟨written_of_toInstr, ?_⟩
  rintro ⟨-, rfl⟩
  exact toInstr_written i

/-- Settles O3: each of the eight closed words is decoded. -/
theorem wordsWrittenOutDecodeAsEncoded : Obligations.WordsWrittenOutDecodeAsEncoded := by
  refine ⟨?_, ?_, ?_, ?_, ?_, ?_, ?_, ?_⟩
  all_goals decide

end Sys2Proof
end

section
/-! PROOFS. The step as a whole: it is the function of rule R87, it ends as rule R168 lists, each fault is recorded
under its own condition (rules R151 to R158), it touches only what rule R35 allows, and it reads two bytes (rules R41,
R45). -/

namespace Sys2Proof.Machine

/-! ### The function of rule R87 -/

/-- The advance as rule R87 writes it. -/
theorem State.advance_eq (s : State) : s.advance = { s with pc := BitVec.ofNat 16 (s.pc.toNat + 2) } := by
  rw [BitVec.ofNat_add, BitVec.ofNat_toNat, BitVec.setWidth_eq]
  rfl

/-! The operands of rule R87, quotients and remainders of the opcode, are the fields. -/

theorem ofNat_div_eq_fieldX (w : Word) : Fin.ofNat 16 (w.toNat / 256) = fieldX w := Fin.ext (fieldX_val w).symm

theorem ofNat_div_eq_fieldY (w : Word) : Fin.ofNat 16 (w.toNat / 16) = fieldY w := Fin.ext (fieldY_val w).symm

theorem ofNat_mod_eq_addrOperand (w : Word) : BitVec.ofNat 16 (w.toNat % 4096) = addrOperand (fieldNNN w) := by
  apply BitVec.eq_of_toNat_eq
  rw [addrOperand_toNat, fieldNNN_toNat, BitVec.toNat_ofNat]
  omega

/-- A slot that exists is written without a bounds check. -/
theorem setIfInBounds_eq_set (v : Vector Word 16) (k : Fin 16) (w : Word) :
    v.setIfInBounds k.val w = v.set k.val w :=
  Vector.ext fun _ _ => by rw [Vector.getElem_setIfInBounds, Vector.getElem_set]

theorem ruleStep_of_runningStep {s t : State} (h : RunningStep s t) : ruleStep s = t := by
  have hword : 256 * (s.mem.read s.pc.toNat).toNat + (s.mem.read (s.pc.toNat + 1)).toNat =
      (s.mem.readWord s.pc.toNat).toNat := (joinBytes_toNat _ _).symm
  simp only [ruleStep, hword]
  cases h with
  | fetchFault hp =>
    rw [if_pos (by omega)]
    rfl
  | unimplemented hp hd =>
    have hno := (decode_eq_unimplemented_iff _).1 hd
    rw [exists_decode_iff_toNat] at hno
    rw [if_neg (by omega), if_neg (by omega), if_neg (by omega), if_neg (by omega), if_neg (by omega), State.advance_eq,
      BitVec.ofNat_toNat, BitVec.setWidth_eq]
    rfl
  | halt hp hd =>
    have hw := (decode_eq_halt _).1 hd
    rw [if_neg (by omega), if_pos hw, State.advance_eq]
    rfl
  | add x y hp hd =>
    obtain ⟨hw, rfl, rfl⟩ := (decode_eq_add _ _ _).1 hd
    rw [if_neg (by omega), if_neg (by omega), if_neg (by omega), if_neg (by omega), if_pos hw, State.advance_eq,
      ← ofNat_div_eq_fieldX, ← ofNat_div_eq_fieldY]
    rfl
  | callFull nnn hp hd hsp =>
    obtain ⟨hw, -⟩ := (decode_eq_call _ _).1 hd
    rw [if_neg (by omega), if_neg (by omega), if_neg (by omega), if_pos hw, if_pos (by omega), State.advance_eq]
    rfl
  | call nnn k hp hd hsp =>
    obtain ⟨hw, rfl⟩ := (decode_eq_call _ _).1 hd
    have hk : Fin.ofNat 17 (k.val + 1) = k.succ := Fin.ofNat_val_eq_self k.succ
    rw [if_neg (by omega), if_neg (by omega), if_neg (by omega), if_pos hw, if_neg (by omega), State.advance_eq,
      ofNat_mod_eq_addrOperand, hsp, hk, setIfInBounds_eq_set]
    rfl
  | retEmpty hp hd hsp =>
    have hw := (decode_eq_ret _).1 hd
    rw [if_neg (by omega), if_neg (by omega), if_pos hw, if_pos hsp, State.advance_eq]
    rfl
  | ret k hp hd hsp =>
    have hw := (decode_eq_ret _).1 hd
    have hk : Fin.ofNat 17 k.val = k.castSucc := Fin.ofNat_val_eq_self k.castSucc
    rw [if_neg (by omega), if_neg (by omega), if_pos hw, if_neg (by omega), State.advance_eq, hsp, Nat.add_sub_cancel,
      hk, Fin.ofNat_val_eq_self]
    rfl

/-! ### What a step reads of memory -/

/-- A way open to a state is open with any memory that has the same word at `pc`, and the memory stays apart from it. -/
theorem RunningStep.setMem {s t : State} {m : Memory} (h : RunningStep s t)
    (hm : m.readWord s.pc.toNat = s.mem.readWord s.pc.toNat) : RunningStep (s.setMem m) (t.setMem m) := by
  cases h with
  | fetchFault hp => exact .fetchFault hp
  | unimplemented hp hd =>
    rw [← hm] at hd ⊢
    exact .unimplemented hp hd
  | halt hp hd => exact .halt hp (hm ▸ hd)
  | add x y hp hd => exact .add x y hp (hm ▸ hd)
  | callFull nnn hp hd hsp => exact .callFull nnn hp (hm ▸ hd) hsp
  | call nnn k hp hd hsp => exact .call nnn k hp (hm ▸ hd) hsp
  | retEmpty hp hd hsp => exact .retEmpty hp (hm ▸ hd) hsp
  | ret k hp hd hsp => exact .ret k hp (hm ▸ hd) hsp

/-! ### The obligations -/

/-- Settles O14: the two bytes make the word at `pc`, and a step runs the instruction it decodes to. -/
theorem stepRunsTheDecodedInstruction : Obligations.StepRunsTheDecodedInstruction := by
  intro s i hr hp hbytes
  obtain ⟨hd, -⟩ := (decodeBytes_eq_ok_iff _ _ _ _ _).1 hbytes
  exact step_of_decode hr (Nat.le_of_succ_le_succ hp) hd

/-- Settles O15: a core that is not running stays, and each running one has one of the eight ways open. -/
theorem notRunningCoreStaysAndNoCoreIsStuck : Obligations.NotRunningCoreStaysAndNoCoreIsStuck :=
  ⟨fun _ => step_of_not_running, exists_step⟩

/-- Settles O16: the function of rule R87 takes every state where the relation takes it. -/
theorem stepIsTheFunctionOfTheSpec : Obligations.StepIsTheFunctionOfTheSpec := by
  intro s hr
  obtain ⟨t, ht⟩ := exists_runningStep s
  rw [ruleStep_of_runningStep ht, step_of_runningStep hr ht]

/-- Settles O17: each way a step ends is one row of the table; the other rows ask for another word or another `sp`. -/
theorem everyWayAStepEnds : Obligations.EveryWayAStepEnds := by
  intro s hr
  obtain ⟨t, ht⟩ := exists_runningStep s
  refine ⟨t, step_of_runningStep hr ht, ?_⟩
  have hwrap : s.pc.toNat < 0xFFF → s.pc.toNat + 2 < 65536 := by omega
  cases ht with
  | fetchFault hp => exact ⟨fun _ => ⟨rfl, rfl⟩, fun h => by omega⟩
  | unimplemented hp hd => simpa [hd, Nat.lt_succ_of_le hp] using hwrap
  | halt hp hd => simpa [hd, Nat.lt_succ_of_le hp] using hwrap
  | add x y hp hd => simpa [hd, hr, Nat.lt_succ_of_le hp] using hwrap
  | callFull nnn hp hd hsp => simpa [hd, hsp, Nat.lt_succ_of_le hp] using hwrap
  | call nnn k hp hd hsp => simp [hd, hr, hsp, Nat.lt_succ_of_le hp, k.isLt.ne]
  | retEmpty hp hd hsp => simpa [hd, hsp, Nat.lt_succ_of_le hp] using hwrap
  | ret k hp hd hsp =>
    have hslot : ∀ i : Fin 16, i.val + 1 = s.sp.val → s.slot k = s.slot i := fun i hi => by
      rw [Fin.ext (Nat.succ.inj (hsp.symm.trans hi.symm))]
    simpa [hd, hr, hsp, Nat.lt_succ_of_le hp] using hslot

/-- Settles O29: in each way a step ends, each of the four conditions is decided by `pc`, the word and `sp`. -/
theorem eachFaultExactlyUnderItsCondition : Obligations.EachFaultExactlyUnderItsCondition := by
  intro s hr
  obtain ⟨t, ht⟩ := exists_runningStep s
  refine ⟨t, step_of_runningStep hr ht, ?_⟩
  cases ht with
  | fetchFault hp => simp [Fault.code, Fault.info, Nat.lt_succ_of_le hp, Nat.not_le.2 (Nat.lt_succ_of_le hp)]
  | unimplemented hp hd => simp [Fault.code, Fault.info, hd, Nat.lt_succ_of_le hp]
  | halt hp hd => simp [hd, Nat.lt_succ_of_le hp]
  | add x y hp hd => simp [hd, hr, Nat.lt_succ_of_le hp]
  | callFull nnn hp hd hsp => simp [Fault.code, Fault.info, hd, hsp, Nat.lt_succ_of_le hp]
  | call nnn k hp hd hsp => simp [hd, hr, hsp, k.isLt.ne, Nat.lt_succ_of_le hp]
  | retEmpty hp hd hsp => simp [Fault.code, Fault.info, hd, hsp, Nat.lt_succ_of_le hp]
  | ret k hp hd hsp => simp [hd, hr, hsp, Nat.lt_succ_of_le hp]

/-- Settles O30: of the eight ways, ADD alone writes registers, CALL alone a slot, CALL and RETURN alone `sp`, and the
faults alone the record. -/
theorem stepTouchesOnlyWhatItMay : Obligations.StepTouchesOnlyWhatItMay := by
  intro s t e
  rcases step_next_cases e with ⟨hr, ht⟩ | ⟨-, rfl⟩
  · cases ht with
    | fetchFault hp => simp [hr]
    | unimplemented hp hd => simp [hr]
    | halt hp hd => simp [hr]
    | add x y hp hd =>
      have hi : s.nextInstr = some (.add x y) := State.nextInstr_eq_some.2 ⟨hp, hd⟩
      have hreg : ∀ j, (s.advance.afterAdd x y).readV j ≠ s.readV j → j = x ∨ j = 15 := fun j hj => by
        by_contra hno
        obtain ⟨hx, h15⟩ := not_or.1 hno
        exact hj (State.readV_afterAdd_other s.advance hx h15)
      exact ⟨fun _ => ⟨hr, x, y, hi, hreg⟩, by simp [hr]⟩
    | callFull nnn hp hd hsp => simp [hr]
    | call nnn k hp hd hsp =>
      have hi : s.nextInstr = some (.call nnn) := State.nextInstr_eq_some.2 ⟨hp, hd⟩
      simp [hr, hi, hsp, State.slot_afterCall]
    | retEmpty hp hd hsp => simp [hr]
    | ret k hp hd hsp =>
      have hi : s.nextInstr = some .ret := State.nextInstr_eq_some.2 ⟨hp, hd⟩
      simp [hr, hi, hsp]
  · simp

/-- Settles O32: the same way is open to the state with the other memory, since the word at `pc` is the same. -/
theorem stepReadsOnlyTheTwoBytesAtPc : Obligations.StepReadsOnlyTheTwoBytesAtPc := by
  intro s t s' hst h0 h1 e
  have hword : t.mem.readWord s.pc.toNat = s.mem.readWord s.pc.toNat := by
    rw [Memory.readWord, h0, h1, Memory.readWord]
  rw [show t = s.setMem t.mem from hst]
  rcases step_next_cases e with ⟨hr, hs'⟩ | ⟨hr, rfl⟩
  · exact step_of_runningStep (s := s.setMem t.mem) hr (hs'.setMem hword)
  · exact step_of_not_running hr

end Sys2Proof.Machine
end

section
/-! PROOFS. ADD: its result, carry and frame (rule R130), the law of rule R131, aliased operands (rule R133), and that
no step is silent (rule R67); and the targets of CALL and RETURN (rule R115). -/

namespace Sys2Proof.Machine

/-! ### The sum and its carry -/

/-- The carry is the ninth bit of the exact sum (rule R131). -/
theorem exactSum_eq_carry_result (a b : Byte) :
    a.toNat + b.toNat = 256 * (carryOut a b).toNat + (sumResult a b).toNat := by
  have ha := a.isLt
  have hb := b.isLt
  rw [carryOut_toNat, sumResult_toNat]
  split <;> omega

theorem carryOut_eq_one_iff (a b : Byte) : (carryOut a b).toNat = 1 ↔ a.toNat + b.toNat ≥ 256 := by
  rw [carryOut_toNat]
  split <;> omega

theorem sumResult_zero (a : Byte) : sumResult a 0#8 = a := by
  apply BitVec.eq_of_toNat_eq
  have ha := a.isLt
  rw [sumResult_toNat, BitVec.toNat_ofNat]
  omega

theorem carryOut_zero (a : Byte) : carryOut a 0#8 = 0#8 := by
  apply BitVec.eq_of_toNat_eq
  have ha := a.isLt
  rw [carryOut_toNat, BitVec.toNat_ofNat, if_neg (by omega)]

/-! ### Every step has an effect -/

/-- No way a running core can step leads back to the state: a fault and HALT end the run, ADD has advanced `pc`, CALL
and RETURN have moved `sp`. -/
theorem RunningStep.ne {s t : State} (hr : s.runState = .running) (h : RunningStep s t) : t ≠ s := by
  cases h with
  | fetchFault hp => exact ne_of_apply_ne State.runState (by simp [hr])
  | unimplemented hp hd => exact ne_of_apply_ne State.runState (by simp [hr])
  | halt hp hd => exact ne_of_apply_ne State.runState (by simp [hr])
  | add x y hp hd => exact ne_of_apply_ne State.pc (by simp)
  | callFull nnn hp hd hsp => exact ne_of_apply_ne State.runState (by simp [hr])
  | call nnn k hp hd hsp => exact ne_of_apply_ne (fun u => u.sp.val) (by simp [hsp])
  | retEmpty hp hd hsp => exact ne_of_apply_ne State.runState (by simp [hr])
  | ret k hp hd hsp => exact ne_of_apply_ne (fun u => u.sp.val) (by simp [hsp])

/-! ### The obligations -/

/-- Settles O21: the registers after an ADD by `State.readV_afterAdd`, and every other piece of state untouched. -/
theorem addWritesTheSumAndTheCarry : Obligations.AddWritesTheSumAndTheCarry := by
  refine fun x y s => ⟨decode_add_word x y, s.afterAdd x y, exec_add_eq_afterAdd x y s, fun hx => ?_, ?_, ?_,
    rfl, rfl, fun _ => rfl, fun _ => rfl, rfl, rfl, rfl⟩
  · rw [State.readV_afterAdd_dest s y hx, sumResult_toNat]
  · rw [State.readV_afterAdd_carry, carryOut_toNat]
  · exact fun j hx h15 => State.readV_afterAdd_other s hx h15

/-- Settles O22: the law on the integers, and an ADD with these operands ends in `State.afterAdd`. -/
theorem additionLawForAllOperands : Obligations.AdditionLawForAllOperands := by
  refine fun a b => ⟨sumResult_toNat a b, carryOut_toNat a b, carryOut_eq_one_iff a b, exactSum_eq_carry_result a b,
    by decide, ?_⟩
  rintro x y s rfl rfl
  exact ⟨s.afterAdd x y, exec_add_eq_afterAdd x y s, rfl, State.readV_afterAdd_carry s x y,
    State.readV_afterAdd_dest s y⟩

/-- Settles O23: the five rows are `State.readV_afterAdd` at their operands; with `x` = `y` the sum is twice `a`. -/
theorem addWithAliasedOperands : Obligations.AddWithAliasedOperands := by
  refine fun x y s => ⟨s.afterAdd x y, exec_add_eq_afterAdd x y s, fun hxy hx hy => ?_, ?_, ?_, ?_, ?_⟩
  · rw [State.readV_afterAdd_dest s y hx, State.readV_afterAdd_carry, sumResult_toNat, carryOut_toNat]
    exact ⟨rfl, rfl, State.readV_afterAdd_other s hxy.symm hy⟩
  · rintro rfl hx
    rw [State.readV_afterAdd_dest s x hx, State.readV_afterAdd_carry, sumResult_toNat, carryOut_toNat, ← two_mul]
    exact ⟨rfl, if_congr (by omega) rfl rfl⟩
  · rintro hx rfl
    rw [State.readV_afterAdd_dest s 15 hx, State.readV_afterAdd_carry, sumResult_toNat, carryOut_toNat]
    exact ⟨rfl, rfl⟩
  · rintro rfl hy
    rw [State.readV_afterAdd_carry, carryOut_toNat]
    exact ⟨rfl, State.readV_afterAdd_other s hy hy⟩
  · rintro rfl rfl
    rw [State.readV_afterAdd_carry, carryOut_toNat, ← two_mul]
    exact if_congr (by omega) rfl rfl

/-- Settles O9: decoding is total and has one answer; no way of stepping leads back to the state; a sum with 0 is the
other operand and has no carry. -/
theorem noSilentNoOps : Obligations.NoSilentNoOps := by
  refine ⟨fun w => ?_, fun s t hr e => ((step_eq_next_iff hr).1 e).ne hr, fun x y s hy => ?_⟩
  · rcases decode_cases w with ⟨i, hd⟩ | hd
    · exact .inl ⟨i, hd, fun j hj => Except.ok.inj (hj.symm.trans hd), dispatchWord_of_decode hd⟩
    · exact .inr ⟨not_exists.1 ((decode_eq_unimplemented_iff w).1 hd), dispatchWord_of_unimplemented hd⟩
  · refine ⟨s.afterAdd x y, exec_add_eq_afterAdd x y s, ?_, fun hx => ?_⟩
    · rw [State.readV_afterAdd_carry, hy, carryOut_zero]
    · rw [State.readV_afterAdd_dest s y hx, hy, sumResult_zero]

/-- Settles O27: CALL and RETURN end running with `pc` at the target, and a running core at 0xFFF or above raises. -/
theorem targetsAreCheckedOnlyByTheNextFetch : Obligations.TargetsAreCheckedOnlyByTheNextFetch := by
  refine ⟨fun s hr hi hsp => ?_, fun s k hr hi hsp hslot => ?_⟩
  · have e := (step_of_nextInstr hr hi).trans
      (exec_call_eq_afterCall 0xFFF#12 (s := s.advance) (k := ⟨s.sp.val, hsp⟩) rfl)
    refine ⟨_, e, hr, rfl, rfl, (step_eq_outOfBoundsFetch_iff ?_).2 ?_⟩
    · exact hr
    · exact Nat.le_refl 0xFFF
  · have e := (step_of_nextInstr hr hi).trans (exec_ret_eq_afterRet (s := s.advance) hsp)
    refine ⟨_, e, hr, rfl, rfl, (step_eq_outOfBoundsFetch_iff ?_).2 ?_⟩
    · exact hr
    · exact hslot

end Sys2Proof.Machine
end

section
/-! PROOFS. Runs: what holds along one (memory, rule R53), two runs side by side (rules R116 and R28). -/

namespace Sys2Proof.Machine

/-! ### Inductions over a run -/

/-- A run's first step, taken apart. -/
theorem exists_step_of_runFor_succ {n : Nat} {s t : State} (e : runFor (n + 1) s = .next t) :
    ∃ u, step s = .next u ∧ runFor n u = .next t := by
  obtain ⟨u, hu⟩ := exists_step s
  exact ⟨u, hu, (runFor_succ n hu).symm.trans e⟩

/-- What every step keeps of a state, a run keeps. -/
theorem runFor_keeps {α : Type} {f : State → α} (hstep : ∀ s t, step s = .next t → f t = f s) :
    ∀ (n : Nat) (s t : State), runFor n s = .next t → f t = f s := by
  intro n
  induction n with
  | zero =>
    intro s t e
    cases e
    rfl
  | succ n ih =>
    intro s t e
    obtain ⟨u, hu, e⟩ := exists_step_of_runFor_succ e
    exact (ih u t e).trans (hstep s u hu)

/-- A relation that every step carries over to the next states, a run carries over to its end. -/
theorem runFor_simulation {R : State → State → Prop}
    (hstep : ∀ s t s', R s t → step s = .next s' → ∃ t', step t = .next t' ∧ R s' t') :
    ∀ (n : Nat) (s t s' : State), R s t → runFor n s = .next s' → ∃ t', runFor n t = .next t' ∧ R s' t' := by
  intro n
  induction n with
  | zero =>
    intro s t s' hst e
    cases e
    exact ⟨t, rfl, hst⟩
  | succ n ih =>
    intro s t s' hst e
    obtain ⟨u, hu, e⟩ := exists_step_of_runFor_succ e
    obtain ⟨v, hv, huv⟩ := hstep s t u hst hu
    obtain ⟨t', ht', hs't'⟩ := ih u v s' huv e
    exact ⟨t', (runFor_succ n hv).trans ht', hs't'⟩

/-- For a relation under which two cores run or stand together, the step needs to be followed only while they run. -/
theorem step_simulation {R : State → State → Prop} (hrun : ∀ s t, R s t → t.runState = s.runState)
    (hstep : ∀ s t s', R s t → RunningStep s s' → ∃ t', RunningStep t t' ∧ R s' t') (s t s' : State) (hst : R s t)
    (e : step s = .next s') : ∃ t', step t = .next t' ∧ R s' t' := by
  rcases step_next_cases e with ⟨hr, hs'⟩ | ⟨hr, rfl⟩
  · obtain ⟨t', ht', hs't'⟩ := hstep s t s' hst hs'
    exact ⟨t', step_of_runningStep ((hrun s t hst).trans hr) ht', hs't'⟩
  · exact ⟨t, step_of_not_running (by rwa [hrun _ t hst]), hst⟩

/-! ### Memory is not written (rule R53) -/

theorem step_mem {s t : State} (e : step s = .next t) : t.mem = s.mem := by
  rcases step_next_cases e with ⟨-, ht⟩ | ⟨-, rfl⟩
  · cases ht <;> rfl
  · rfl

/-! ### Registers do not steer (rule R116) -/

/-- The same way is open with other registers, and only they differ after it: ADD alone reads them, to write them. -/
theorem RunningStep.setV {s s' : State} (v : Vector Byte 16) (h : RunningStep s s') :
    ∃ t', RunningStep (s.setV v) t' ∧ s'.sameButV t' := by
  cases h with
  | fetchFault hp => exact ⟨_, .fetchFault hp, rfl⟩
  | unimplemented hp hd => exact ⟨_, .unimplemented hp hd, rfl⟩
  | halt hp hd => exact ⟨_, .halt hp hd, rfl⟩
  | add x y hp hd => exact ⟨_, .add x y hp hd, rfl⟩
  | callFull nnn hp hd hsp => exact ⟨_, .callFull nnn hp hd hsp, rfl⟩
  | call nnn k hp hd hsp => exact ⟨_, .call nnn k hp hd hsp, rfl⟩
  | retEmpty hp hd hsp => exact ⟨_, .retEmpty hp hd hsp, rfl⟩
  | ret k hp hd hsp => exact ⟨_, .ret k hp hd hsp, rfl⟩

theorem sameButV_runState {s t : State} (h : s.sameButV t) : t.runState = s.runState :=
  (congrArg State.runState h).trans rfl

theorem sameButV_runningStep {s t s' : State} (h : s.sameButV t) (hs' : RunningStep s s') :
    ∃ t', RunningStep t t' ∧ s'.sameButV t' := by
  rw [show t = s.setV t.V from h]
  exact hs'.setV t.V

/-! ### Free slots are not read (rule R28) -/

theorem sameButFreeSlots_runState {s t : State} (h : s.sameButFreeSlots t) : t.runState = s.runState :=
  (congrArg State.runState h.1).trans rfl

/-- The same way is open with other free slots: CALL writes one and makes it live, RETURN reads a live one and frees
it. -/
theorem sameButFreeSlots_runningStep {s t s' : State} (h : s.sameButFreeSlots t) (hs' : RunningStep s s') :
    ∃ t', RunningStep t t' ∧ s'.sameButFreeSlots t' := by
  obtain ⟨ht, hlive⟩ := h
  generalize t.stack = v at ht
  subst ht
  cases hs' with
  | fetchFault hp => exact ⟨_, .fetchFault hp, rfl, hlive⟩
  | unimplemented hp hd => exact ⟨_, .unimplemented hp hd, rfl, hlive⟩
  | halt hp hd => exact ⟨_, .halt hp hd, rfl, hlive⟩
  | add x y hp hd => exact ⟨_, .add x y hp hd, rfl, hlive⟩
  | callFull nnn hp hd hsp => exact ⟨_, .callFull nnn hp hd hsp, rfl, hlive⟩
  | call nnn k hp hd hsp =>
    refine ⟨_, .call nnn k hp hd hsp, rfl, fun i hi => ?_⟩
    have hik : i ≠ k → i.val < s.sp.val := fun hne => by
      have hle : i.val < k.val + 1 := hi
      have := Fin.val_ne_of_ne hne
      omega
    rw [State.slot_afterCall, State.slot_afterCall]
    split_ifs with hk
    · rfl
    · exact hlive i (hik hk)
  | retEmpty hp hd hsp => exact ⟨_, .retEmpty hp hd hsp, rfl, hlive⟩
  | ret k hp hd hsp =>
    have hk : (s.setStack v).slot k = s.slot k := hlive k (by omega)
    refine ⟨_, .ret k hp hd hsp, ?_, fun i hi => hlive i ?_⟩
    · simp only [State.afterRet, State.slot_advance, hk]
      rfl
    · have hlt : i.val < k.val := hi
      omega

/-! ### The obligations -/

/-- Settles O31: no way of stepping writes memory, so no run does. -/
theorem memoryIsConstantDuringARun : Obligations.MemoryIsConstantDuringARun := by
  intro n s t e
  have hm : t.mem = s.mem := runFor_keeps (f := State.mem) (fun _ _ => step_mem) n s t e
  exact ⟨hm, fun a => by rw [hm]⟩

/-- Settles O33: the relation is carried over by every step, so by every run. -/
theorem controlFlowNeverDependsOnRegisters : Obligations.ControlFlowNeverDependsOnRegisters :=
  runFor_simulation (step_simulation (fun _ _ => sameButV_runState) fun _ _ _ => sameButV_runningStep)

/-- Settles O34: the relation is carried over by every step, so by every run. -/
theorem freeSlotsAreInvisibleToPrograms : Obligations.FreeSlotsAreInvisibleToPrograms :=
  runFor_simulation
    (step_simulation (fun _ _ => sameButFreeSlots_runState) fun _ _ _ => sameButFreeSlots_runningStep)

end Sys2Proof.Machine
end

section
/-! PROOFS. Every run ends (rule R189).

A line of instructions from an address goes up by two until it leaves memory, so it has at most 2048 of them.  Each may
be a CALL that opens a line one deeper, and at depth 16 none can.  So an instruction at depth `d` is worth more than a
whole line at depth `d + 1`. -/

namespace Sys2Proof.Machine

/-! ### The work left in a run -/

/-- How many instructions a line from the address can hold. -/
def lineLeft (p : Word) : Nat := (0x1000 - p.toNat) / 2

/-- What an instruction at the depth is worth. -/
def depthWeight (d : Nat) : Nat := 2049 ^ (16 - d)

/-- The work in the lines that the first `n` slots go back to. -/
def State.savedWork (s : State) (n : Nat) : Nat :=
  ∑ i ∈ Finset.range n, depthWeight i * lineLeft (s.slot (Fin.ofNat 16 i))

/-- The work left in the current line and in those that its live slots go back to. -/
def State.workLeft (s : State) : Nat := s.savedWork s.sp.val + depthWeight s.sp.val * lineLeft s.pc

theorem lineLeft_le (p : Word) : lineLeft p ≤ 2048 := by
  unfold lineLeft
  omega

theorem lineLeft_advance {s : State} (hp : s.pc.toNat ≤ 0xFFE) : lineLeft s.pc = lineLeft s.advance.pc + 1 := by
  rw [lineLeft, lineLeft, State.advance_pc_toNat hp]
  omega

theorem depthWeight_pos (d : Nat) : 0 < depthWeight d := Nat.pow_pos (by omega)

theorem depthWeight_eq_succ {d : Nat} (h : d < 16) : depthWeight d = 2049 * depthWeight (d + 1) := by
  rw [depthWeight, depthWeight, ← Nat.pow_succ', show 16 - d = (16 - (d + 1)).succ by omega]

theorem State.savedWork_succ (s : State) (k : Fin 16) :
    s.savedWork (k.val + 1) = s.savedWork k.val + depthWeight k.val * lineLeft (s.slot k) := by
  rw [State.savedWork, Finset.sum_range_succ, Fin.ofNat_val_eq_self]
  rfl

/-- Only the slots below `n` count. -/
theorem savedWork_congr {s t : State} {n : Nat} (hn : n ≤ 16) (h : ∀ i : Fin 16, i.val < n → t.slot i = s.slot i) :
    t.savedWork n = s.savedWork n := by
  refine Finset.sum_congr rfl fun i hi => ?_
  have hlt : i < n := Finset.mem_range.1 hi
  have hmod : (Fin.ofNat 16 i).val = i := Nat.mod_eq_of_lt (by omega)
  rw [h _ (by omega)]

/-- A step that leaves the core running leaves it less to do. -/
theorem RunningStep.workLeft_lt {s t : State} (h : RunningStep s t) (ht : t.runState = .running) :
    t.workLeft < s.workLeft := by
  cases h with
  | fetchFault hp => simp at ht
  | unimplemented hp hd => simp at ht
  | halt hp hd => simp at ht
  | add x y hp hd =>
    have hpos := depthWeight_pos s.sp.val
    show s.savedWork s.sp.val + depthWeight s.sp.val * lineLeft s.advance.pc <
      s.savedWork s.sp.val + depthWeight s.sp.val * lineLeft s.pc
    rw [lineLeft_advance hp, Nat.mul_succ]
    omega
  | callFull nnn hp hd hsp => simp at ht
  | call nnn k hp hd hsp =>
    have hbelow : (s.advance.afterCall k nnn).savedWork k.val = s.savedWork k.val :=
      savedWork_congr k.isLt.le fun i hi => by
        rw [State.slot_afterCall, if_neg (Fin.ne_of_lt hi), State.slot_advance]
    have hpushed : (s.advance.afterCall k nnn).slot k = s.advance.pc := by rw [State.slot_afterCall, if_pos rfl]
    have hline := Nat.mul_le_mul_left (depthWeight (k.val + 1)) (lineLeft_le (addrOperand nnn))
    have hpos := depthWeight_pos (k.val + 1)
    have hweight := depthWeight_eq_succ k.isLt
    show (s.advance.afterCall k nnn).savedWork (k.val + 1) + depthWeight (k.val + 1) * lineLeft (addrOperand nnn) <
      s.savedWork s.sp.val + depthWeight s.sp.val * lineLeft s.pc
    rw [State.savedWork_succ, hbelow, hpushed, hsp, lineLeft_advance hp, Nat.mul_succ]
    omega
  | retEmpty hp hd hsp => simp at ht
  | ret k hp hd hsp =>
    have hpos := depthWeight_pos (k.val + 1)
    show s.savedWork k.val + depthWeight k.val * lineLeft (s.slot k) <
      s.savedWork s.sp.val + depthWeight s.sp.val * lineLeft s.pc
    rw [hsp, State.savedWork_succ, lineLeft_advance hp, Nat.mul_succ]
    omega

/-- A step of a running core leaves it running or ends the run. -/
theorem RunningStep.running_or_over {s t : State} (hr : s.runState = .running) (h : RunningStep s t) :
    t.runState = .running ∨ t.over := by
  cases h with
  | fetchFault hp => exact .inr (.inr rfl)
  | unimplemented hp hd => exact .inr (.inr rfl)
  | halt hp hd => exact .inr (.inl rfl)
  | add x y hp hd => exact .inl hr
  | callFull nnn hp hd hsp => exact .inr (.inr rfl)
  | call nnn k hp hd hsp => exact .inl hr
  | retEmpty hp hd hsp => exact .inr (.inr rfl)
  | ret k hp hd hsp => exact .inl hr

/-- A run ends at the latest one step after its work is done. -/
theorem exists_over_within_workLeft {s : State} (hr : s.runState = .running) :
    ∃ (n : Nat) (t : State), n ≤ s.workLeft + 1 ∧ runFor n s = .next t ∧ t.over := by
  induction hb : s.workLeft using Nat.strong_induction_on generalizing s with
  | _ b ih =>
    obtain ⟨t, ht⟩ := exists_runningStep s
    have e := step_of_runningStep hr ht
    rcases ht.running_or_over hr with hrt | hover
    · have hlt : t.workLeft < b := hb ▸ ht.workLeft_lt hrt
      obtain ⟨n, u, hn, en, hu⟩ := ih t.workLeft hlt hrt rfl
      exact ⟨n + 1, u, by omega, (runFor_succ n e).trans en, hu⟩
    · exact ⟨1, t, by omega, runFor_succ 0 e, hover⟩

/-- An empty stack leaves one line to do. -/
theorem State.workLeft_le_of_empty {s : State} (h0 : s.sp.val = 0) : s.workLeft ≤ 2049 ^ 16 * 2048 := by
  have hempty : s.savedWork 0 = 0 := Finset.sum_range_zero _
  rw [State.workLeft, h0, hempty, Nat.zero_add]
  exact Nat.mul_le_mul_left _ (lineLeft_le s.pc)

/-! ### The obligations -/

/-- Settles O43: every step that does not end the run takes from the work left. -/
theorem everyRunEnds : Obligations.EveryRunEnds := by
  intro s hr
  obtain ⟨n, t, -, e, hover⟩ := exists_over_within_workLeft hr
  exact ⟨n, t, e, hover⟩

/-- Settles O44: with an empty stack the work left is at most 2048 instructions of the greatest weight. -/
theorem runFromAnEmptyStackEndsWithinTheBound : Obligations.RunFromAnEmptyStackEndsWithinTheBound := by
  intro s hr h0
  have hwork := State.workLeft_le_of_empty h0
  obtain ⟨n, t, hn, e, hover⟩ := exists_over_within_workLeft hr
  exact ⟨n, t, by omega, e, hover⟩

end Sys2Proof.Machine
end

section
/-! PROOFS. The host: its operations in their windows (rules R183, R184), the life of a run (rules R181, R185) and reset
(rule R34). -/

namespace Sys2Proof.Machine

/-! ### What a host operation does -/

theorem hostStep_of_allowed {op : HostOp} {s : State} (h : op.allowed s.runState = true) :
    hostStep op s = op.effect s := by
  rw [hostStep, if_pos h]

theorem hostStep_of_not_allowed {op : HostOp} {s : State} (h : op.allowed s.runState = false) :
    hostStep op s = (.turnedAway, s) := by
  rw [hostStep, if_neg (by simp [h])]

/-- While the core runs the host can only reset it. -/
theorem HostOp.allowed_running {op : HostOp} (h : op ≠ .reset) : op.allowed .running = false := by
  cases op with
  | reset => exact absurd rfl h
  | _ => rfl

/-- Everything a host operation can make of the state: nothing, the reset state, or, while IDLE, one write or the
start. -/
theorem hostStep_state_cases (op : HostOp) (s : State) :
    (hostStep op s).2 = s ∨ (op = .reset ∧ (hostStep op s).2 = State.reset) ∨
    (s.runState = .idle ∧
      ((∃ a v, op = .writeMem a v ∧ (hostStep op s).2 = s.setMem (s.mem.write a.toNat v)) ∨
       (∃ i v, op = .writeReg i v ∧ (hostStep op s).2 = s.writeV i v) ∨
       (op = .start ∧ (hostStep op s).2 = s.setRunState .running))) := by
  rcases hostStep_cases op s with ⟨-, e⟩ | ⟨hallowed, e⟩
  · exact .inl (by rw [e])
  rw [e]
  cases op with
  | reset => exact .inr (.inl ⟨rfl, rfl⟩)
  | writeMem a v => exact .inr (.inr ⟨beq_iff_eq.1 hallowed, .inl ⟨a, v, rfl, rfl⟩⟩)
  | writeReg i v => exact .inr (.inr ⟨beq_iff_eq.1 hallowed, .inr (.inl ⟨i, v, rfl, rfl⟩)⟩)
  | start => exact .inr (.inr ⟨beq_iff_eq.1 hallowed, .inr (.inr ⟨rfl, rfl⟩)⟩)
  | readMem a => exact .inl rfl
  | readReg i => exact .inl rfl
  | readStatus => exact .inl rfl

theorem Memory.read_write {m : Memory} (hm : m.wf) (a b : Nat) (v : Byte) :
    (m.write a v).read b = if b = a then v else m.read b := by
  split_ifs with h
  · rw [h, Memory.read_write_same hm]
  · exact Memory.read_write_other m v h

theorem hostStep_reset (s : State) : hostStep .reset s = (.done, State.reset) := hostStep_of_allowed rfl

/-- A finished run is not IDLE and not RUNNING. -/
theorem State.over.not_idle_not_running {s : State} (h : s.over) : s.runState ≠ .idle ∧ s.runState ≠ .running := by
  rcases h with h | h <;> simp [h]

/-! ### The obligations -/

/-- Settles O35: `HostOp.allowed` decides each window; in it the effect is `HostOp.effect`. -/
theorem hostOperationsKeepToTheirWindows : Obligations.HostOperationsKeepToTheirWindows := by
  refine fun s hm => ⟨fun hidle => ⟨fun a v => ?_, fun i v => ?_, ?_⟩, fun hne => ⟨fun a v => ?_, fun i v => ?_, ?_⟩,
    fun hne => ⟨fun a => ?_, fun i => ?_, ?_⟩, fun hr op hop => ?_, hostStep_reset s⟩
  · exact ⟨_, hostStep_of_allowed (beq_iff_eq.2 hidle), rfl, Memory.write_wf hm a.isLt v,
      fun b => Memory.read_write hm a.toNat b v⟩
  · refine ⟨_, hostStep_of_allowed (beq_iff_eq.2 hidle), rfl, fun j => ?_⟩
    simp only [State.readV_writeV, eq_comm]
  · exact hostStep_of_allowed (beq_iff_eq.2 hidle)
  · exact hostStep_of_not_allowed (beq_eq_false_iff_ne.2 hne)
  · exact hostStep_of_not_allowed (beq_eq_false_iff_ne.2 hne)
  · exact hostStep_of_not_allowed (beq_eq_false_iff_ne.2 hne)
  · exact hostStep_of_allowed (bne_iff_ne.2 hne)
  · exact hostStep_of_allowed (bne_iff_ne.2 hne)
  · exact hostStep_of_allowed (bne_iff_ne.2 hne)
  · exact hostStep_of_not_allowed (hr ▸ HostOp.allowed_running hop)

/-- Settles O36: a finished core is not running, so a step leaves it; it is not IDLE, so of the host's operations only
Reset changes it. -/
theorem onlyResetLeavesATerminalState : Obligations.OnlyResetLeavesATerminalState := by
  intro s hover
  obtain ⟨hidle, hrunning⟩ := hover.not_idle_not_running
  refine ⟨fun t e => ?_, fun op hop => ?_, hostStep_of_not_allowed (beq_eq_false_iff_ne.2 hidle), ?_⟩
  · exact Host.Outcome.next.inj (e.symm.trans (step_of_not_running hrunning))
  · rcases hostStep_state_cases op s with e | ⟨h, -⟩ | ⟨h, -⟩
    · exact e
    · exact absurd h hop
    · exact absurd h hidle
  · rw [hostStep_reset]
    rfl

/-- Settles O37: of the eight ways a step can end, five change `run_state`, HALT and the four faults; of the host's
operations, those with an effect on it are Reset and Start. -/
theorem runStateChangesOnlyAsTheLifecycleSays : Obligations.RunStateChangesOnlyAsTheLifecycleSays := by
  refine ⟨fun s t e hne => ?_, fun op s hne => ?_⟩
  · rcases step_next_cases e with ⟨hr, ht⟩ | ⟨-, rfl⟩
    · refine ⟨hr, ?_⟩
      cases ht with
      | fetchFault hp => exact .inr ⟨rfl, .inl rfl⟩
      | unimplemented hp hd => exact .inr ⟨rfl, .inr (.inr (.inr ⟨_, rfl⟩))⟩
      | halt hp hd => exact .inl ⟨rfl, State.nextInstr_eq_some.2 ⟨hp, hd⟩⟩
      | add x y hp hd => exact absurd rfl hne
      | callFull nnn hp hd hsp => exact .inr ⟨rfl, .inr (.inl rfl)⟩
      | call nnn k hp hd hsp => exact absurd rfl hne
      | retEmpty hp hd hsp => exact .inr ⟨rfl, .inr (.inr (.inl rfl))⟩
      | ret k hp hd hsp => exact absurd rfl hne
    · exact absurd rfl hne
  · rcases hostStep_state_cases op s with e | ⟨hop, e⟩ | ⟨hidle, ⟨a, v, -, e⟩ | ⟨i, v, -, e⟩ | ⟨hop, e⟩⟩
    all_goals rw [e] at hne ⊢
    · exact absurd rfl hne
    · exact .inl ⟨hop, rfl⟩
    · exact absurd rfl hne
    · exact absurd rfl hne
    · exact .inr ⟨hop, hidle, rfl⟩

/-- Settles O38: Reset is allowed in every state, and its effect is the state of rule R34. -/
theorem resetLeavesEveryPieceOfStateAtItsValue : Obligations.ResetLeavesEveryPieceOfStateAtItsValue := by
  refine fun s => ⟨State.reset, hostStep_reset s, fun j => ?_, fun _ => rfl, rfl, rfl, fun i => ?_, rfl, rfl, rfl⟩
  · exact Vector.getElem_replicate _
  · exact Vector.getElem_replicate _

end Sys2Proof.Machine
end

section
/-! PROOFS. The invariant: it holds at reset, and every step and every host operation keeps it, so it holds of every
reachable state (rule R25; rules R151 to R154, R188). -/

namespace Sys2Proof.Machine

/-! ### What the operations of a step keep -/

/-- While the core runs the invariant speaks of memory, `pc`, the slots and the empty record alone. -/
theorem State.Inv.of_running {s t : State} (h : s.Inv) (hs : s.runState = .running) (ht : t.runState = .running)
    (hm : t.mem = s.mem) (hpc : t.pc.toNat ≤ 0x1000) (hslot : ∀ i, (t.slot i).toNat ≤ 0x1000)
    (hc : t.faultCause = s.faultCause) (hi : t.faultInfo = s.faultInfo) : t.Inv where
  memWf := hm ▸ h.memWf
  pcRange := hpc
  savedRange := hslot
  idleAtEntry := fun e => by simp [ht] at e
  noRecord := fun _ => by
    rw [hc, hi]
    exact h.noRecord (by simp [hs])
  haltBehind := fun e => by simp [ht] at e
  record := fun e => by simp [ht] at e

theorem State.Inv.advance {s : State} (h : s.Inv) (hr : s.runState = .running) (hp : s.pc.toNat ≤ 0xFFE) :
    s.advance.Inv := by
  have hadv := State.advance_pc_toNat hp
  exact h.of_running hr hr rfl (by omega) h.savedRange rfl rfl

theorem State.Inv.afterAdd {s : State} (h : s.Inv) (hr : s.runState = .running) (x y : RegIdx) : (s.afterAdd x y).Inv :=
  h.of_running hr hr rfl h.pcRange h.savedRange rfl rfl

/-- A CALL saves a `pc` in range and goes to an address that exists. -/
theorem State.Inv.afterCall {s : State} (h : s.Inv) (hr : s.runState = .running) (k : Fin 16) (nnn : Addr) :
    (s.afterCall k nnn).Inv := by
  refine h.of_running hr hr rfl ?_ (fun i => ?_) rfl rfl
  · have := nnn.isLt
    rw [State.afterCall_pc, addrOperand_toNat]
    omega
  · rw [State.slot_afterCall]
    split_ifs
    · exact h.pcRange
    · exact h.savedRange i

/-- A RETURN goes to a saved value in range. -/
theorem State.Inv.afterRet {s : State} (h : s.Inv) (hr : s.runState = .running) (k : Fin 16) : (s.afterRet k).Inv :=
  h.of_running hr hr rfl (h.savedRange k) h.savedRange rfl rfl

theorem State.Inv.halt {s : State} (h : s.Inv) (hr : s.runState = .running) (hw : s.lastWord = some 0x0000#16) :
    s.halt.Inv where
  memWf := h.memWf
  pcRange := h.pcRange
  savedRange := h.savedRange
  idleAtEntry := fun e => by simp at e
  noRecord := fun _ => h.noRecord (by simp [hr])
  haltBehind := fun _ => hw
  record := fun e => by simp at e

theorem State.Inv.raise {s : State} {f : Fault} (h : s.Inv) (htrue : (s.raise f).faultRecordTrue) :
    (s.raise f).Inv where
  memWf := h.memWf
  pcRange := h.pcRange
  savedRange := h.savedRange
  idleAtEntry := fun e => by simp at e
  noRecord := fun hne => absurd rfl hne
  haltBehind := fun e => by simp at e
  record := fun _ => htrue

/-! ### The word behind an advanced `pc` -/

theorem State.lastWord_advance {s : State} (hp : s.pc.toNat ≤ 0xFFE) :
    s.advance.lastWord = some (s.mem.readWord s.pc.toNat) := by
  have hadv := State.advance_pc_toNat hp
  rw [State.lastWord, if_pos (by omega), hadv, Nat.add_sub_cancel]
  rfl

/-- Behind the advanced `pc` stands the word that was fetched, so every fault of a step records the truth. -/
theorem RunningStep.inv {s t : State} (h : RunningStep s t) (hr : s.runState = .running) (hi : s.Inv) : t.Inv := by
  cases h with
  | fetchFault hp => exact hi.raise (.inl ⟨rfl, rfl, hp⟩)
  | unimplemented hp hd =>
    exact (hi.advance hr hp).raise (.inr (.inr (.inr ⟨rfl, State.lastWord_advance hp, hd⟩)))
  | halt hp hd =>
    have hw : s.mem.readWord s.pc.toNat = 0x0000#16 := BitVec.eq_of_toNat_eq ((decode_eq_halt _).1 hd)
    exact (hi.advance hr hp).halt hr (hw ▸ State.lastWord_advance hp)
  | add x y hp hd => exact (hi.advance hr hp).afterAdd hr x y
  | callFull nnn hp hd hsp =>
    exact (hi.advance hr hp).raise (.inr (.inl ⟨rfl, rfl, hsp, _, nnn, State.lastWord_advance hp, hd⟩))
  | call nnn k hp hd hsp => exact (hi.advance hr hp).afterCall hr k nnn
  | retEmpty hp hd hsp =>
    have hw : s.mem.readWord s.pc.toNat = 0x00EE#16 := BitVec.eq_of_toNat_eq ((decode_eq_ret _).1 hd)
    exact (hi.advance hr hp).raise (.inr (.inr (.inl ⟨rfl, rfl, hsp, hw ▸ State.lastWord_advance hp⟩)))
  | ret k hp hd hsp => exact (hi.advance hr hp).afterRet hr k

theorem step_keeps_inv {s t : State} (hi : s.Inv) (e : step s = .next t) : t.Inv := by
  rcases step_next_cases e with ⟨hr, ht⟩ | ⟨-, rfl⟩
  · exact ht.inv hr hi
  · exact hi

/-! ### What reset and the host keep -/

theorem reset_inv : State.reset.Inv where
  memWf := Memory.wf_nil
  pcRange := Nat.zero_le _
  savedRange := fun i => by
    rw [State.slot, State.reset, Vector.getElem_replicate]
    exact Nat.zero_le _
  idleAtEntry := fun _ => ⟨rfl, rfl⟩
  noRecord := fun _ => ⟨rfl, rfl⟩
  haltBehind := fun e => by cases e
  record := fun e => by cases e

/-- A write to memory is made while IDLE, when no end of a run speaks of memory. -/
theorem State.Inv.setMem {s : State} (h : s.Inv) (hr : s.runState = .idle) {m : Memory} (hm : m.wf) :
    (s.setMem m).Inv where
  memWf := hm
  pcRange := h.pcRange
  savedRange := h.savedRange
  idleAtEntry := h.idleAtEntry
  noRecord := h.noRecord
  haltBehind := fun e => by simp [hr] at e
  record := fun e => by simp [hr] at e

/-- The invariant does not speak of registers. -/
theorem State.Inv.writeV {s : State} (h : s.Inv) (i : RegIdx) (v : Byte) : (s.writeV i v).Inv where
  memWf := h.memWf
  pcRange := h.pcRange
  savedRange := h.savedRange
  idleAtEntry := h.idleAtEntry
  noRecord := h.noRecord
  haltBehind := h.haltBehind
  record := h.record

theorem State.Inv.start {s : State} (h : s.Inv) (hr : s.runState = .idle) : (s.setRunState .running).Inv where
  memWf := h.memWf
  pcRange := h.pcRange
  savedRange := h.savedRange
  idleAtEntry := fun e => by simp at e
  noRecord := fun _ => h.noRecord (by simp [hr])
  haltBehind := fun e => by simp at e
  record := fun e => by simp at e

theorem hostStep_keeps_inv (op : HostOp) {s : State} (hi : s.Inv) : (hostStep op s).2.Inv := by
  rcases hostStep_state_cases op s with e | ⟨-, e⟩ | ⟨hidle, ⟨a, v, -, e⟩ | ⟨i, v, -, e⟩ | ⟨-, e⟩⟩
  all_goals rw [e]
  · exact hi
  · exact reset_inv
  · exact hi.setMem hidle (Memory.write_wf hi.memWf a.isLt v)
  · exact hi.writeV i v
  · exact hi.start hidle

theorem Reachable.inv {s : State} (h : Reachable s) : s.Inv := by
  induction h with
  | reset => exact reset_inv
  | core s t hs e ih => exact step_keeps_inv ih e
  | host op s hs ih => exact hostStep_keeps_inv op ih

/-! ### What the invariant says of `pc` -/

/-- With `pc` in range a fetch fails at 0xFFF and 0x1000 only. -/
theorem State.Inv.pc_of_fetch_none {s : State} (h : s.Inv) (hf : s.fetch = none) :
    s.pc = 0x0FFF#16 ∨ s.pc = 0x1000#16 := by
  have hrange := h.pcRange
  rcases s.fetch_cases with ⟨hp, -⟩ | ⟨-, e⟩
  · rw [BitVec.toNat_eq, BitVec.toNat_eq]
    show s.pc.toNat = 0xFFF ∨ s.pc.toNat = 0x1000
    omega
  · cases e.symm.trans hf

theorem State.advance_pc_of_fetch {s : State} (hf : s.fetch ≠ none) : s.advance.pc.toNat = s.pc.toNat + 2 := by
  obtain ⟨w, hw⟩ := Option.ne_none_iff_exists'.1 hf
  exact State.advance_pc_toNat (State.pc_le_of_fetch_some hw)

/-! ### The obligations -/

/-- Settles O39: `reset_inv`; the core is IDLE, so the clauses on the ends of a run ask nothing. -/
theorem invariantHoldsAtReset : Obligations.InvariantHoldsAtReset := reset_inv

/-- Settles O40: each of the eight ways of stepping keeps it (`RunningStep.inv`). -/
theorem stepKeepsTheInvariant : Obligations.StepKeepsTheInvariant := fun _ _ => step_keeps_inv

/-- Settles O41: each state a host operation can leave meets it (`hostStep_keeps_inv`). -/
theorem hostOperationKeepsTheInvariant : Obligations.HostOperationKeepsTheInvariant := fun op _ => hostStep_keeps_inv op

/-- Settles O42: every reachable state meets the invariant, which bounds `pc` and says that the record is true. -/
theorem reachableStatesNeverWrapAndRecordTheTruth : Obligations.ReachableStatesNeverWrapAndRecordTheTruth := by
  intro s hs
  have hi := hs.inv
  refine ⟨hi.pcRange, hi.pc_of_fetch_none, State.advance_pc_of_fetch, fun hsucc => ?_, hi.record⟩
  have hhalted : s.runState = .halted := hsucc
  exact ⟨(hi.noRecord (by simp [hhalted])).1, hi.haltBehind hhalted⟩

end Sys2Proof.Machine
end

section
/-! PROOFS. The model's own forms: canonical memories with the same bytes are the same data (log entry 7), and the word
that is placed is the next one run (log entry 8). -/

namespace Sys2Proof.Machine

/-! ### Canonical memories -/

/-- The first entry's byte is read at its address. -/
theorem Memory.read_head (a : Nat) (v : Byte) (m : Memory) : Memory.read ((a, v) :: m) a = v := by
  rw [Memory.read, if_pos rfl]

/-- The listed addresses rise, so below the first one every byte is the reset value. -/
theorem Memory.read_below_head {a b : Nat} {v : Byte} {m : Memory} (hm : Memory.wf ((a, v) :: m)) (h : b < a) :
    Memory.read ((a, v) :: m) b = 0#8 := by
  refine Memory.read_of_lt fun c hc => ?_
  rcases List.mem_cons.1 hc with rfl | hc
  · exact h
  · exact Nat.lt_trans h ((List.pairwise_cons.1 hm.1).1 c hc)

/-- After the first entry its address is not listed again. -/
theorem Memory.read_tail_head {a : Nat} {v : Byte} {m : Memory} (hm : Memory.wf ((a, v) :: m)) : m.read a = 0#8 :=
  Memory.read_of_lt (List.pairwise_cons.1 hm.1).1

theorem Memory.head_ne_zero {a : Nat} {v : Byte} {m : Memory} (hm : Memory.wf ((a, v) :: m)) : v ≠ 0#8 :=
  (hm.2 (a, v) List.mem_cons_self).2

/-- A memory that lists a byte does not read as zero everywhere. -/
theorem Memory.eq_nil_of_read {m : Memory} (hm : m.wf) (h : ∀ a, m.read a = 0#8) : m = [] := by
  cases m with
  | nil => rfl
  | cons c m => exact absurd ((Memory.read_head c.1 c.2 m).symm.trans (h c.1)) (Memory.head_ne_zero hm)

/-- Of two memories with the same bytes neither lists a byte below the other's first one. -/
theorem Memory.head_le_of_read {a b : Nat} {v u : Byte} {m n : Memory} (hm : Memory.wf ((a, v) :: m))
    (hn : Memory.wf ((b, u) :: n)) (h : ∀ c, Memory.read ((a, v) :: m) c = Memory.read ((b, u) :: n) c) : b ≤ a := by
  by_contra hlt
  have hv : v = 0#8 := by
    rw [← Memory.read_head a v m, h a, Memory.read_below_head hn (Nat.lt_of_not_le hlt)]
  exact Memory.head_ne_zero hm hv

theorem Memory.ext_of_wf {m₁ m₂ : Memory} (h₁ : m₁.wf) (h₂ : m₂.wf) (h : ∀ a, m₁.read a = m₂.read a) : m₁ = m₂ := by
  induction m₁ generalizing m₂ with
  | nil => exact (Memory.eq_nil_of_read h₂ fun a => (h a).symm).symm
  | cons c m ih =>
    obtain ⟨a, v⟩ := c
    cases m₂ with
    | nil => exact Memory.eq_nil_of_read h₁ h
    | cons d n =>
      obtain ⟨b, u⟩ := d
      obtain rfl : a = b :=
        Nat.le_antisymm (Memory.head_le_of_read h₂ h₁ fun c => (h c).symm) (Memory.head_le_of_read h₁ h₂ h)
      obtain rfl : v = u := by rw [← Memory.read_head a v m, h a, Memory.read_head]
      have htail : ∀ c, Memory.read m c = Memory.read n c := fun c => by
        by_cases hc : c = a
        · rw [hc, Memory.read_tail_head h₁, Memory.read_tail_head h₂]
        · simpa [Memory.read, hc] using h c
      rw [ih (Memory.wf_tail h₁) (Memory.wf_tail h₂) htail]

/-! ### The placed word -/

/-- The whole word is placed. -/
theorem State.withFetchWord_toNat (s : State) (w : Word) : s.withFetchWord 16 w.toNat = s.placeFetchWord w := by
  rw [State.withFetchWord, Nat.mod_eq_of_lt w.isLt, BitVec.ofNat_toNat, BitVec.setWidth_eq]

/-- Where a fetch succeeds, the word is placed at `pc` itself. -/
theorem State.placeFetchWord_pc {s : State} (w : Word) (hf : s.fetch ≠ none) : (s.placeFetchWord w).pc = s.pc := by
  rcases s.fetch_cases with ⟨-, e⟩ | ⟨hp, -⟩
  · exact absurd e hf
  · exact if_neg (show ¬ s.pc.toNat + 1 > 0xFFF by omega)

/-- Wherever the word is placed a fetch succeeds. -/
theorem State.placeFetchWord_pc_le (s : State) (w : Word) : (s.placeFetchWord w).pc.toNat ≤ 0xFFE := by
  show (if s.pc.toNat + 1 > 0xFFF then Config.entryPoint else s.pc).toNat ≤ 0xFFE
  split_ifs with h
  · exact Nat.zero_le _
  · omega

/-- The fetch reads the placed word. -/
theorem State.placeFetchWord_fetch {s : State} (hm : s.mem.wf) (w : Word) : (s.placeFetchWord w).fetch = some w := by
  have hp := s.placeFetchWord_pc_le w
  have hmem : (s.placeFetchWord w).mem = s.mem.writeWord (s.placeFetchWord w).pc.toNat w := rfl
  rw [State.fetch_of_legal (Nat.succ_le_succ hp), hmem, Memory.readWord_writeWord hm (by omega)]

/-! ### The obligations -/

/-- Settles O45: by induction on both lists; equal bytes give equal first entries, and then equal bytes of the rests. -/
theorem canonicalMemoriesWithTheSameBytesAreEqual : Obligations.CanonicalMemoriesWithTheSameBytesAreEqual :=
  fun _ _ => Memory.ext_of_wf

/-- Settles O46: the placed word is fetched, so the step dispatches it in the advanced state. -/
theorem placedWordIsTheNextOneRun : Obligations.PlacedWordIsTheNextOneRun := by
  refine fun s w hm => ⟨?_, decodeTableWord_eq_some_iff w⟩
  have hstep := step_of_fetch_some (s := s.placeFetchWord w) rfl (State.placeFetchWord_fetch hm w)
  rw [State.withFetchWord_toNat]
  refine ⟨_, hstep, rfl, rfl, rfl, rfl, fun hf => ?_⟩
  rw [State.advance_pc_toNat (s.placeFetchWord_pc_le w), State.placeFetchWord_pc w hf]

end Sys2Proof.Machine
end
